-- ==== Sys2Proof/Word.lean ====
section
/-! DEFINITION. Word types of the interface and the state (00_scope.md R6, R13; 20_memory.md R74: a word is a number). -/

namespace Sys2Proof

/-- Operand words, response words, half registers and POS are 64 bits (00_scope.md R6, R13). -/
abbrev Word := BitVec 64

/-- A command word is 32 bits (00_scope.md R13). -/
abbrev CmdWord := BitVec 32

/-- A data, keystream or digest byte (00_scope.md R10, R11). -/
abbrev Byte := BitVec 8

end Sys2Proof
end

