-- ==== Sys2Proof/Config.lean ====
section
/-! DEFINITION. The fixed parameters of the block. 10_state.md R30: "The configuration is fixed", so a machine has no
configuration field, and 93_implementation_defined.md leaves no value of any command open, so there is no free value.
The one open parameter of the spec, HASH, is the host's and "a block model does not need it" (00_scope.md R14). -/

namespace Sys2Proof

/-- "interface version 1 of this spec" (00_scope.md R3). No command reads it. -/
abbrev Config.interfaceVersion : Nat := 1

/-- The least bit count of RSTEPN and CSTEPN (00_scope.md R9; 30_encoding.md R114). -/
abbrev Config.minCount : Nat := 1

/-- The greatest bit count of RSTEPN and CSTEPN (00_scope.md R9; 30_encoding.md R114). -/
abbrev Config.maxCount : Nat := 64

/-- Keystream bits in a keystream byte (00_scope.md R11). -/
abbrev Config.bitsPerByte : Nat := 8

end Sys2Proof
end

