-- ==== Sys2Proof/Syntax.lean ====
section
/-! DEFINITION. The commands as syntax: one constructor of `Instr` for each row of spec/opcode_table.json
(30_encoding.md R110), and the shape of a row of the opcode map. -/

namespace Sys2Proof

/-- The register an RS field selects (30_encoding.md R102). -/
inductive RegSel where
  | r0 | r1 | r2 | b
deriving DecidableEq, Repr

/-- The fifteen commands (30_encoding.md R110). Operand words stand whole, as the host gives them (R104). -/
inductive Instr where
  /-- 48_control.md R270 -/
  | nop
  /-- 40_register.md R150: OPS[0] is the new HI, OPS[1] the new LO -/
  | rld (rs : RegSel) (hi lo : Word)
  /-- 40_register.md R151 -/
  | rrd (rs : RegSel)
  /-- 40_register.md R152; RS is always 3 (B) -/
  | rstep
  /-- 40_register.md R153; RS is always 3 (B) -/
  | rstepc
  /-- 40_register.md R154; RS is always 3 (B), `n` is the field N -/
  | rstepn (n : Nat)
  /-- 42_key_schedule.md R190 -/
  | ksdrv (d0 d1 d2 d3 : Word)
  /-- 42_key_schedule.md R191 -/
  | ksexp
  /-- 44_combiner.md R220 -/
  | cstep
  /-- 44_combiner.md R221; `n` is the field N -/
  | cstepn (n : Nat)
  /-- 46_stream.md R250: the operand word, whose bits 7:0 are the data byte -/
  | code (op : Word)
  /-- 46_stream.md R251: the operand word, read as signed -/
  | skip (op : Word)
  /-- 48_control.md R271 -/
  | prd
  /-- 48_control.md R272 -/
  | srd
  /-- 48_control.md R273 -/
  | srst
deriving DecidableEq, Repr

/-- The names of the rows of the opcode map (30_encoding.md R110). -/
inductive Opcode where
  | nop | rld | rrd | rstep | rstepc | rstepn | ksdrv | ksexp | cstep | cstepn | code | skip | prd | srd | srst
deriving DecidableEq, Repr

/-- What a row asks of RS (30_encoding.md R111): any of 0 to 3, exactly 3 (B), or 0. -/
inductive RsRule where
  | any | onlyB | zero
deriving DecidableEq, Repr

/-- What a row asks of N (30_encoding.md R113, R114): a count from 1 to 64, or 0. -/
inductive NRule where
  | count | zero
deriving DecidableEq, Repr

/-- One row of the opcode map (30_encoding.md R110). -/
structure OpRow where
  /-- the value of OPC -/
  opc : BitVec 8
  /-- the constraint on RS -/
  rs : RsRule
  /-- the constraint on N -/
  n : NRule
  /-- how many operand words the transaction must carry (R116) -/
  operands : Nat
  /-- how many response words an accepted command answers -/
  responses : Nat
deriving DecidableEq, Repr

/-- Why a transaction encodes no command: every cause of 60_exceptions.md R302, by name. The block records the command
word and not the cause (R302), so the cause is the decoder's and no state holds it. -/
inductive RejectCause where
  /-- 30_encoding.md R117 -/
  | reservedOpcode
  /-- 30_encoding.md R115 -/
  | reservedBit
  /-- 30_encoding.md R111, R112: RSTEP, RSTEPC, RSTEPN with RS other than 3 -/
  | rsNotB
  /-- 30_encoding.md R111: RS other than 0 for an opcode that takes no register -/
  | rsNotZero
  /-- 30_encoding.md R113 -/
  | nNotZero
  /-- 30_encoding.md R114 -/
  | nOutOfRange
  /-- 30_encoding.md R116 -/
  | operandCount
deriving DecidableEq, Repr

end Sys2Proof
end

