-- ==== Sys2Proof/WellFormed.lean ====
section
/-! DEFINITION. Which terms of `Instr` an encoding can name: every term but an RSTEPN or CSTEPN whose count is outside
1..64 (30_encoding.md R114). Register selects and operand words are legal at every value of their types (R104, R111). -/

namespace Sys2Proof

/-- A bit count of RSTEPN or CSTEPN: "1 <= N <= 64" (30_encoding.md R114). -/
def countOk (n : Nat) : Bool :=
  decide (Config.minCount ≤ n ∧ n ≤ Config.maxCount)

/-- The instruction is one a legal transaction can encode. -/
def wellFormed : Instr → Bool
  | .nop => true
  | .rld _ _ _ => true
  | .rrd _ => true
  | .rstep => true
  | .rstepc => true
  | .rstepn n => countOk n
  | .ksdrv _ _ _ _ => true
  | .ksexp => true
  | .cstep => true
  | .cstepn n => countOk n
  | .code _ => true
  | .skip _ => true
  | .prd => true
  | .srd => true
  | .srst => true

end Sys2Proof
end

