-- ==== Sys2Proof/Decode.lean ====
section
/-! DEFINITION. The command encoding of 30_encoding.md: the fields of the command word (R101), the opcode map (R110), the
decoder (R120, R121: total, rejecting by name), and the encoder written from the same tables. -/

namespace Sys2Proof

/-! ### The fields of the command word (30_encoding.md R101) -/

/-- OPC, bits 7:0. -/
def cwOpc (cw : CmdWord) : BitVec 8 := cw.extractLsb' 0 8

/-- RS, bits 9:8. -/
def cwRs (cw : CmdWord) : BitVec 2 := cw.extractLsb' 8 2

/-- Z1, bits 15:10. -/
def cwZ1 (cw : CmdWord) : BitVec 6 := cw.extractLsb' 10 6

/-- N, bits 22:16. -/
def cwN (cw : CmdWord) : BitVec 7 := cw.extractLsb' 16 7

/-- Z2, bits 31:23. -/
def cwZ2 (cw : CmdWord) : BitVec 9 := cw.extractLsb' 23 9

/-- The command word with the given fields and its reserved bits zero: "zzzzzzzzz nnnnnnn zzzzzz rr oooooooo" (R101). -/
def cmdWord (opc : BitVec 8) (rs : BitVec 2) (n : BitVec 7) : CmdWord :=
  (n.setWidth 32 <<< 16) ||| (rs.setWidth 32 <<< 8) ||| opc.setWidth 32

/-- "RS = 0 selects R0, 1 selects R1, 2 selects R2, 3 selects B" (30_encoding.md R102). -/
def regSelOf (rs : BitVec 2) : RegSel :=
  if rs = 0#2 then .r0 else if rs = 1#2 then .r1 else if rs = 2#2 then .r2 else .b

/-- The RS value that selects a register (30_encoding.md R102). -/
def regSelCode : RegSel → BitVec 2
  | .r0 => 0#2
  | .r1 => 1#2
  | .r2 => 2#2
  | .b => 3#2

/-! ### The opcode map (30_encoding.md R110) -/

/-- The row of each command: OPC, RS, N, operand words, response words. -/
def opRow : Opcode → OpRow
  | .nop    => ⟨0x00#8, .zero,  .zero,  0, 0⟩
  | .rld    => ⟨0x01#8, .any,   .zero,  2, 0⟩
  | .rrd    => ⟨0x02#8, .any,   .zero,  0, 2⟩
  | .rstep  => ⟨0x03#8, .onlyB, .zero,  0, 1⟩
  | .rstepc => ⟨0x04#8, .onlyB, .zero,  0, 1⟩
  | .rstepn => ⟨0x05#8, .onlyB, .count, 0, 1⟩
  | .ksdrv  => ⟨0x10#8, .zero,  .zero,  4, 0⟩
  | .ksexp  => ⟨0x11#8, .zero,  .zero,  0, 0⟩
  | .cstep  => ⟨0x20#8, .zero,  .zero,  0, 1⟩
  | .cstepn => ⟨0x21#8, .zero,  .count, 0, 1⟩
  | .code   => ⟨0x30#8, .zero,  .zero,  1, 1⟩
  | .skip   => ⟨0x31#8, .zero,  .zero,  1, 0⟩
  | .prd    => ⟨0x40#8, .zero,  .zero,  0, 1⟩
  | .srd    => ⟨0x41#8, .zero,  .zero,  0, 1⟩
  | .srst   => ⟨0x7F#8, .zero,  .zero,  0, 0⟩

/-- All fifteen commands, in the order of the map. -/
def allOpcodes : List Opcode :=
  [.nop, .rld, .rrd, .rstep, .rstepc, .rstepn, .ksdrv, .ksexp, .cstep, .cstepn, .code, .skip, .prd, .srd, .srst]

/-- The command an OPC value names; none for a reserved value (30_encoding.md R117). -/
def opcodeOf (opc : BitVec 8) : Option Opcode :=
  allOpcodes.find? fun o => (opRow o).opc == opc

/-- The command an instruction is an instance of. -/
def opcodeOfInstr : Instr → Opcode
  | .nop => .nop
  | .rld _ _ _ => .rld
  | .rrd _ => .rrd
  | .rstep => .rstep
  | .rstepc => .rstepc
  | .rstepn _ => .rstepn
  | .ksdrv _ _ _ _ => .ksdrv
  | .ksexp => .ksexp
  | .cstep => .cstep
  | .cstepn _ => .cstepn
  | .code _ => .code
  | .skip _ => .skip
  | .prd => .prd
  | .srd => .srd
  | .srst => .srst

/-! ### Legality and dispatch (30_encoding.md R120) -/

/-- Z1 and Z2 must be 0 (30_encoding.md R115). -/
def reservedCheck (cw : CmdWord) : Option RejectCause :=
  if cwZ1 cw = 0#6 ∧ cwZ2 cw = 0#9 then none else some .reservedBit

/-- RS meets the constraint of the row (30_encoding.md R111). -/
def rsCheck : RsRule → BitVec 2 → Option RejectCause
  | .any, _ => none
  | .onlyB, rs => if rs = 3#2 then none else some .rsNotB
  | .zero, rs => if rs = 0#2 then none else some .rsNotZero

/-- N meets the constraint of the row (30_encoding.md R113, R114). -/
def nCheck : NRule → BitVec 7 → Option RejectCause
  | .count, n => if countOk n.toNat then none else some .nOutOfRange
  | .zero, n => if n = 0#7 then none else some .nNotZero

/-- The operand list has the length the row asks for (30_encoding.md R116). -/
def operandCheck (want : Nat) (ops : List Word) : Option RejectCause :=
  if ops.length = want then none else some .operandCount

/-- The first cause to reject a transaction whose OPC names `o`, none when it is legal. Which cause comes first cannot be
observed (60_exceptions.md R304). -/
def firstCause (o : Opcode) (cw : CmdWord) (ops : List Word) : Option RejectCause :=
  (reservedCheck cw).or <| (rsCheck (opRow o).rs (cwRs cw)).or <|
    (nCheck (opRow o).n (cwN cw)).or <| operandCheck (opRow o).operands ops

/-- OPS[j] of a transaction whose operand count has been checked. -/
def operandAt (ops : List Word) (j : Nat) : Word := ops.getD j 0#64

/-- The instruction a legal transaction encodes, from its fields (30_encoding.md R102, R103, R104). -/
def instrOf (o : Opcode) (rs : RegSel) (n : Nat) (ops : List Word) : Instr :=
  match o with
  | .nop => .nop
  | .rld => .rld rs (operandAt ops 0) (operandAt ops 1)
  | .rrd => .rrd rs
  | .rstep => .rstep
  | .rstepc => .rstepc
  | .rstepn => .rstepn n
  | .ksdrv => .ksdrv (operandAt ops 0) (operandAt ops 1) (operandAt ops 2) (operandAt ops 3)
  | .ksexp => .ksexp
  | .cstep => .cstep
  | .cstepn => .cstepn n
  | .code => .code (operandAt ops 0)
  | .skip => .skip (operandAt ops 0)
  | .prd => .prd
  | .srd => .srd
  | .srst => .srst

/-- The decoder, total on every command word and operand list (30_encoding.md R120, R121). -/
def decode (cw : CmdWord) (ops : List Word) : Except RejectCause Instr :=
  match opcodeOf (cwOpc cw) with
  | none => .error .reservedOpcode
  | some o =>
    match firstCause o cw ops with
    | some c => .error c
    | none => .ok (instrOf o (regSelOf (cwRs cw)) (cwN cw).toNat ops)

/-! ### The encoder (30_encoding.md R101, R104, R110) -/

/-- The transaction (command word, operand words) of a well-formed instruction. -/
def encode : Instr → CmdWord × List Word
  | .nop => (cmdWord (opRow .nop).opc 0#2 0#7, [])
  | .rld rs hi lo => (cmdWord (opRow .rld).opc (regSelCode rs) 0#7, [hi, lo])
  | .rrd rs => (cmdWord (opRow .rrd).opc (regSelCode rs) 0#7, [])
  | .rstep => (cmdWord (opRow .rstep).opc (regSelCode .b) 0#7, [])
  | .rstepc => (cmdWord (opRow .rstepc).opc (regSelCode .b) 0#7, [])
  | .rstepn n => (cmdWord (opRow .rstepn).opc (regSelCode .b) (BitVec.ofNat 7 n), [])
  | .ksdrv d0 d1 d2 d3 => (cmdWord (opRow .ksdrv).opc 0#2 0#7, [d0, d1, d2, d3])
  | .ksexp => (cmdWord (opRow .ksexp).opc 0#2 0#7, [])
  | .cstep => (cmdWord (opRow .cstep).opc 0#2 0#7, [])
  | .cstepn n => (cmdWord (opRow .cstepn).opc 0#2 (BitVec.ofNat 7 n), [])
  | .code op => (cmdWord (opRow .code).opc 0#2 0#7, [op])
  | .skip op => (cmdWord (opRow .skip).opc 0#2 0#7, [op])
  | .prd => (cmdWord (opRow .prd).opc 0#2 0#7, [])
  | .srd => (cmdWord (opRow .srd).opc 0#2 0#7, [])
  | .srst => (cmdWord (opRow .srst).opc 0#2 0#7, [])

/-! ### Instructions as numbers, for the host's two questions -/

/-- How many operand words the opcode of a command word asks for; 0 for a reserved opcode (30_encoding.md R116). -/
def operandCountOf (cw : CmdWord) : Nat :=
  match opcodeOf (cwOpc cw) with
  | none => 0
  | some o => (opRow o).operands

/-- The transaction whose bits are the `nbits` low bits of `w`: bits 31:0 are the command word, and operand word j, as many
as the opcode asks for, is bits 95+64j:32+64j; every bit from `nbits` up is 0 (log entry 4). -/
def tableTransaction (nbits w : Nat) : CmdWord × List Word :=
  let v := w % 2 ^ nbits
  let cw : CmdWord := BitVec.ofNat 32 v
  (cw, (List.range (operandCountOf cw)).map fun j => BitVec.ofNat 64 (v >>> (32 + 64 * j)))

/-- The instruction the decoder reads from a numbered table word, none where it rejects. -/
def decodeTableWord (nbits w : Nat) : Option Instr :=
  match decode (tableTransaction nbits w).1 (tableTransaction nbits w).2 with
  | .ok i => some i
  | .error _ => none

end Sys2Proof
end

