-- ==== Sys2Proof/Machine/State.lean ====
section
/-! DEFINITION. The state of the block (10_state.md R30), its reset value (R62), the reasons a step can stop, and the two
host-side lists that stand for a run's input and observation (70_reset_and_hazards.md R361). -/

namespace Sys2Proof.Machine

/-- One 128-bit LFSR register as two 64-bit words (10_state.md R31). Every value is legal (R34). -/
structure Reg where
  hi : Word
  lo : Word
deriving DecidableEq, Repr

/-- The combiner's three registers, "no additional state beyond them" (44_combiner.md R210). -/
structure Combiner where
  r0 : Reg
  r1 : Reg
  r2 : Reg
deriving DecidableEq, Repr

/-- The six words w0..w5 that key expansion produces (42_key_schedule.md R183). -/
structure SeedWords where
  w0 : Word
  w1 : Word
  w2 : Word
  w3 : Word
  w4 : Word
  w5 : Word
deriving DecidableEq, Repr

/-- The block's answer to one transaction: the ok bit and the response words (30_encoding.md R100). -/
structure Response where
  ok : Bool
  words : List Word
deriving DecidableEq, Repr

/-- What the host can do to the block: "exactly two things" (20_memory.md R72). -/
inductive HostAction where
  /-- a command word with its operand words (30_encoding.md R100) -/
  | transaction (cw : CmdWord) (ops : List Word)
  /-- the reset input (70_reset_and_hazards.md R340) -/
  | reset
deriving DecidableEq, Repr

/-- The architectural state (10_state.md R30), and the host's side of a run: the actions still to come and the responses
delivered. The last two are the MODEL's own fields, no queue of the block (10_state.md R60): log entries 1 and 2. -/
structure State where
  /-- R0 (10_state.md R31) -/
  r0 : Reg
  /-- R1 (10_state.md R31) -/
  r1 : Reg
  /-- R2 (10_state.md R31) -/
  r2 : Reg
  /-- B, the bootstrap register (10_state.md R32) -/
  b : Reg
  /-- POS, the keystream position (10_state.md R50) -/
  pos : Word
  /-- STATUS.ILL (10_state.md R55) -/
  ill : Bool
  /-- STATUS.ERRCW (10_state.md R55) -/
  errcw : CmdWord
  /-- the host's actions still to come, oldest first (70_reset_and_hazards.md R361; DESIGN CHOICE, log entry 1) -/
  actions : List HostAction
  /-- the responses delivered, oldest first (70_reset_and_hazards.md R361; DESIGN CHOICE, log entry 2) -/
  responses : List Response
deriving DecidableEq, Repr

/-- Every register zero, POS 0, ILL 0, ERRCW 0 (10_state.md R62), no host action pending and no response delivered. -/
def State.reset : State where
  r0 := ⟨0#64, 0#64⟩
  r1 := ⟨0#64, 0#64⟩
  r2 := ⟨0#64, 0#64⟩
  b := ⟨0#64, 0#64⟩
  pos := 0#64
  ill := false
  errcw := 0#32
  actions := []
  responses := []

/-- The block has no fault: every accepted command completes (60_exceptions.md R300), a rejected one is a next state
(R301), and the block never ends a run on its own (70_reset_and_hazards.md R361). So no constructor: nothing raises one. -/
inductive Fault where
deriving DecidableEq, Repr

/-- Reasons to refuse an instruction. -/
inductive Refusal where
  /-- The arm of an instruction in `exec` that has no meaning yet; safe (a run stops there). No arm raises it now. -/
  | notModelled (mnemonic : String)
deriving DecidableEq, Repr

/-- The outcome of an instruction or of a step. -/
abbrev Result := Host.Outcome State Fault Refusal

end Sys2Proof.Machine
end

