-- ==== Sys2Proof/Machine/Operands.lean ====
section
/-! DEFINITION. How the words that cross the interface are read and made: operand words (30_encoding.md R104), response
words (20_memory.md R77) and the packing of digest bytes (20_memory.md R73). -/

namespace Sys2Proof.Machine

/-- `zext_64` of one bit: a keystream or register bit "is returned zero-extended to 64 bits" (20_memory.md R77). -/
def zextBit (bit : Bool) : Word := (BitVec.ofBool bit).setWidth 64

/-- `zext_64` of a byte (46_stream.md R250). -/
def zextByte (y : Byte) : Word := y.setWidth 64

/-- "OPS[0][7:0] is the data byte; OPS[0][63:8] is ignored" (30_encoding.md R104). -/
def dataByte (op : Word) : Byte := op.extractLsb' 0 8

/-- "`signed64(v)` reads a 64-bit word as a two's-complement integer" (00_scope.md R16). -/
def signed64 (op : Word) : Int := op.toInt

/-- A list of bytes as a little-endian number: the first byte is the least significant (20_memory.md R73). -/
def littleEndian : List Byte → Nat
  | [] => 0
  | d :: ds => d.toNat + 256 * littleEndian ds

/-- Dj: "Word j holds bytes d[8j] .. d[8j+7] little-endian" (20_memory.md R73). -/
def digestWord (d : List Byte) (j : Nat) : Word :=
  BitVec.ofNat 64 (littleEndian ((d.drop (8 * j)).take 8))

/-- The bootstrap register of a digest: HI = seed_high = D0, LO = seed_low = D1; D2 and D3 affect nothing
(42_key_schedule.md R181, R182). -/
def bootstrapSeed (d0 d1 : Word) : Reg := ⟨d0, d1⟩

end Sys2Proof.Machine
end

