-- ==== Sys2Proof/Machine/Flags.lean ====
section
/-! DEFINITION. The status register (10_state.md R55): the block's only flag is STATUS.ILL (R41), and no accepted command
but SRST changes it. -/

namespace Sys2Proof.Machine

/-- `STATUS = {ERRCW[31:0], 31'b0, ILL}` (10_state.md R55): ERRCW in bits 63:32, ILL in bit 0, zero between. -/
def statusWord (errcw : CmdWord) (ill : Bool) : Word :=
  (errcw.setWidth 64 <<< 32) ||| zextBit ill

/-- What a rejection does to STATUS: `STATUS.ILL <- 1`, `STATUS.ERRCW <- CW` (60_exceptions.md R301). -/
def recordRejection (cw : CmdWord) (s : State) : State :=
  { s with ill := true, errcw := cw }

end Sys2Proof.Machine
end

