-- ==== Sys2Proof/Machine/Ops.lean ====
section
/-! DEFINITION. The shared operations: the Register functions (40_register.md R140 to R145), the key expansion
(42_key_schedule.md R183, R184), the combiner (44_combiner.md R211, R212), the byte functions (46_stream.md R240, R241), and
the operations on the state: registers, POS, responses, rejection and reset. -/

namespace Sys2Proof.Machine

/-! ### The Register (40_register.md) -/

/-- The feedback bit: LO[0] ^ LO[1] ^ LO[2] ^ LO[7] (40_register.md R141). -/
def lfsrFb (r : Reg) : Bool :=
  r.lo.getLsbD 0 ^^ r.lo.getLsbD 1 ^^ r.lo.getLsbD 2 ^^ r.lo.getLsbD 7

/-- One state evolution, both halves computed from the values before the step (40_register.md R142). -/
def lfsrNext (r : Reg) : Reg where
  hi := (r.hi >>> 1) ||| (zextBit (lfsrFb r) <<< 63)
  lo := (r.lo >>> 1) ||| (zextBit (r.hi.getLsbD 0) <<< 63)

/-- step: the shifted-out bit LO[0], and the next state (40_register.md R143). -/
def lfsrStep (r : Reg) : Bool × Reg := (r.lo.getLsbD 0, lfsrNext r)

/-- step_carry: the feedback bit, and the same next state (40_register.md R144; 90_conflicts.md C6). -/
def lfsrStepCarry (r : Reg) : Bool × Reg := (lfsrFb r, lfsrNext r)

/-- The loop of step_n, for the Register and the combiner alike: n times, take one bit and shift it into the value, so that
the first bit ends most significant (40_register.md R145; 44_combiner.md R212). -/
def assembleBits {σ : Type} (f : σ → Bool × σ) : Nat → Word → σ → Word × σ
  | 0, v, c => (v, c)
  | n + 1, v, c => assembleBits f n ((v <<< 1) ||| zextBit (f c).1) (f c).2

/-- step_n (40_register.md R145). -/
def lfsrStepN (r : Reg) (n : Nat) : Word × Reg := assembleBits lfsrStep n 0#64 r

/-! ### The key schedule (42_key_schedule.md) -/

/-- expand: step_n(64) six times in order (42_key_schedule.md R183). -/
def keyExpand (b : Reg) : SeedWords :=
  let x0 := lfsrStepN b 64
  let x1 := lfsrStepN x0.2 64
  let x2 := lfsrStepN x1.2 64
  let x3 := lfsrStepN x2.2 64
  let x4 := lfsrStepN x3.2 64
  let x5 := lfsrStepN x4.2 64
  ⟨x0.1, x1.1, x2.1, x3.1, x4.1, x5.1⟩

/-- R0 <- (w0, w1); R1 <- (w2, w3); R2 <- (w4, w5) (42_key_schedule.md R184). -/
def seedCombiner (w : SeedWords) : Combiner := ⟨⟨w.w0, w.w1⟩, ⟨w.w2, w.w3⟩, ⟨w.w4, w.w5⟩⟩

/-! ### The combiner (44_combiner.md) -/

/-- One keystream bit: R0 and R1 step and give their bits, R2 steps and gives the control bit, and on control 1 R0 is
clocked once more and R1 twice more, after the bits are taken (44_combiner.md R211). -/
def combStep (c : Combiner) : Bool × Combiner :=
  let s0 := lfsrStep c.r0
  let s1 := lfsrStep c.r1
  let s2 := lfsrStepCarry c.r2
  (s0.1 ^^ s1.1,
    if s2.1 then ⟨(lfsrStep s0.2).2, (lfsrStep (lfsrStep s1.2).2).2, s2.2⟩
    else ⟨s0.2, s1.2, s2.2⟩)

/-- n keystream bits, the first most significant (44_combiner.md R212). -/
def combStepN (c : Combiner) (n : Nat) : Word × Combiner := assembleBits combStep n 0#64 c

/-! ### The keystream bytes (46_stream.md) -/

/-- Code one byte: XOR with the next eight keystream bits (46_stream.md R240). -/
def codeByte (data : Byte) (c : Combiner) : Byte × Combiner :=
  let k := combStepN c Config.bitsPerByte
  (data ^^^ k.1.setWidth 8, k.2)

/-- The loop of skip: k keystream bytes, discarded (46_stream.md R241). -/
def skipBytes : Nat → Combiner → Combiner
  | 0, c => c
  | k + 1, c => skipBytes k (combStepN c Config.bitsPerByte).2

/-! ### Registers and POS in the state -/

/-- `R[RS]` (00_scope.md R17; 30_encoding.md R102). -/
def readReg (s : State) : RegSel → Reg
  | .r0 => s.r0
  | .r1 => s.r1
  | .r2 => s.r2
  | .b => s.b

/-- `R[RS] <- (h, l)` (00_scope.md R17). -/
def writeReg (s : State) (rs : RegSel) (r : Reg) : State :=
  match rs with
  | .r0 => { s with r0 := r }
  | .r1 => { s with r1 := r }
  | .r2 => { s with r2 := r }
  | .b => { s with b := r }

/-- The combiner (R0, R1, R2) of the state (44_combiner.md R210). -/
def combiner (s : State) : Combiner := ⟨s.r0, s.r1, s.r2⟩

/-- (R0, R1, R2) <- C. -/
def setCombiner (s : State) (c : Combiner) : State := { s with r0 := c.r0, r1 := c.r1, r2 := c.r2 }

/-- POS <- 0 (10_state.md R50(c)). -/
def clearPos (s : State) : State := { s with pos := 0#64 }

/-- POS <- POS + n, modulo 2^64 (10_state.md R50(a)). -/
def advancePos (s : State) (n : Nat) : State := { s with pos := s.pos + BitVec.ofNat 64 n }

/-- Expand `b` into R0, R1, R2 and end the expansion: B <- (0, 0), POS <- 0 (42_key_schedule.md R183, R184, R185). -/
def expandInto (s : State) (b : Reg) : State :=
  clearPos (writeReg (setCombiner s (seedCombiner (keyExpand b))) .b ⟨0#64, 0#64⟩)

/-! ### Responses, rejection and reset -/

/-- `respond(1, words)`: the answer to an accepted command (00_scope.md R17; 30_encoding.md R120). -/
def respond (s : State) (words : List Word) : State :=
  { s with responses := s.responses ++ [⟨true, words⟩] }

/-- `raise Reject(CW)`: the block's one exception. STATUS records the command word, the answer is (0, []), and nothing
else changes (60_exceptions.md R301). There is no return from it (R306). -/
def reject (cw : CmdWord) (s : State) : State :=
  { recordRejection cw s with responses := s.responses ++ [⟨false, []⟩] }

/-- Every piece of the block's state to its reset value (10_state.md R62; 70_reset_and_hazards.md R341). The host's side of
the run, the actions to come and the responses it has, is no state of the block and stays. -/
def resetBlock (s : State) : State :=
  { State.reset with actions := s.actions, responses := s.responses }

/-- The host's next action, and the state without it; none when the host has issued nothing (20_memory.md R72, R80). -/
def nextAction (s : State) : Option (HostAction × State) :=
  match s.actions with
  | [] => none
  | a :: rest => some (a, { s with actions := rest })

/-- "The block does nothing on its own between transactions" (20_memory.md R72). -/
def idle (s : State) : State := s

end Sys2Proof.Machine
end

