-- ==== Sys2Proof/Machine/CombinerCommands.lean ====
section
/-! DEFINITION. The combiner commands (44_combiner.md section 3). -/

namespace Sys2Proof.Machine

/-- CSTEP: one keystream bit, POS + 1 (44_combiner.md R220). -/
def execCstep (s : State) : Result :=
  let x := combStep (combiner s)
  .next (respond (advancePos (setCombiner s x.2) 1) [zextBit x.1])

/-- CSTEPN: N keystream bits, first bit most significant, POS + N (44_combiner.md R221). -/
def execCstepn (n : Nat) (s : State) : Result :=
  let x := combStepN (combiner s) n
  .next (respond (advancePos (setCombiner s x.2) n) [x.1])

end Sys2Proof.Machine
end

