-- ==== Sys2Proof/Machine/Control.lean ====
section
/-! DEFINITION. The control and status commands (48_control.md). -/

namespace Sys2Proof.Machine

/-- NOP: respond, and nothing else (48_control.md R270). -/
def execNop (s : State) : Result := .next (respond s [])

/-- PRD: respond POS (48_control.md R271). -/
def execPrd (s : State) : Result := .next (respond s [s.pos])

/-- SRD: respond STATUS, which reading does not clear (48_control.md R272). -/
def execSrd (s : State) : Result := .next (respond s [statusWord s.errcw s.ill])

/-- SRST: every piece of state to its reset value, then respond (48_control.md R273). -/
def execSrst (s : State) : Result := .next (respond (resetBlock s) [])

end Sys2Proof.Machine
end

