-- ==== Sys2Proof/Machine/KeySchedule.lean ====
section
/-! DEFINITION. The key schedule commands (42_key_schedule.md section 2). -/

namespace Sys2Proof.Machine

/-- KSDRV: B <- (D0, D1), then expand B; D2 and D3 are read by no rule (42_key_schedule.md R190). -/
def execKsdrv (d0 d1 _d2 _d3 : Word) (s : State) : Result :=
  .next (respond (expandInto s (bootstrapSeed d0 d1)) [])

/-- KSEXP: expand B as it stands (42_key_schedule.md R191). -/
def execKsexp (s : State) : Result :=
  .next (respond (expandInto s s.b) [])

end Sys2Proof.Machine
end

