-- ==== Sys2Proof/Machine/Register.lean ====
section
/-! DEFINITION. The Register commands (40_register.md section 3). -/

namespace Sys2Proof.Machine

/-- RLD: R[RS] <- (OPS[0], OPS[1]), and POS <- 0 unless RS selects B (40_register.md R150). -/
def execRld (rs : RegSel) (hi lo : Word) (s : State) : Result :=
  let s' := writeReg s rs ⟨hi, lo⟩
  .next (respond (if rs = .b then s' else clearPos s') [])

/-- RRD: respond R[RS].HI, R[RS].LO (40_register.md R151). -/
def execRrd (rs : RegSel) (s : State) : Result :=
  .next (respond s [(readReg s rs).hi, (readReg s rs).lo])

/-- RSTEP: step B, respond the shifted-out bit (40_register.md R152). -/
def execRstep (s : State) : Result :=
  let x := lfsrStep s.b
  .next (respond (writeReg s .b x.2) [zextBit x.1])

/-- RSTEPC: step B, respond the feedback bit (40_register.md R153). -/
def execRstepc (s : State) : Result :=
  let x := lfsrStepCarry s.b
  .next (respond (writeReg s .b x.2) [zextBit x.1])

/-- RSTEPN: step B N times, respond the N bits, first bit most significant (40_register.md R154). -/
def execRstepn (n : Nat) (s : State) : Result :=
  let x := lfsrStepN s.b n
  .next (respond (writeReg s .b x.2) [x.1])

end Sys2Proof.Machine
end

