-- ==== Sys2Proof/Machine/Stream.lean ====
section
/-! DEFINITION. The stream commands (46_stream.md section 3). -/

namespace Sys2Proof.Machine

/-- CODE: XOR the data byte with the next keystream byte, POS + 8 (46_stream.md R250). -/
def execCode (op : Word) (s : State) : Result :=
  let x := codeByte (dataByte op) (combiner s)
  .next (respond (advancePos (setCombiner s x.2) 8) [zextByte x.1])

/-- SKIP: k <= 0 changes nothing; k > 0 discards k keystream bytes, POS + 8k (46_stream.md R251). -/
def execSkip (op : Word) (s : State) : Result :=
  let k := signed64 op
  if k ≤ 0 then .next (respond s [])
  else .next (respond (advancePos (setCombiner s (skipBytes k.toNat (combiner s))) (8 * k.toNat)) [])

end Sys2Proof.Machine
end

