-- ==== Sys2Proof/Machine/Dispatch.lean ====
section
/-! DEFINITION. One arm per command: the meaning of an accepted command (30_encoding.md R110, R120). -/

namespace Sys2Proof.Machine

def exec (i : Instr) (s : State) : Host.Outcome State Fault Refusal :=
  match i with
  | .nop => Sys2Proof.Machine.execNop s
  | .rld rs hi lo => Sys2Proof.Machine.execRld rs hi lo s
  | .rrd rs => Sys2Proof.Machine.execRrd rs s
  | .rstep => Sys2Proof.Machine.execRstep s
  | .rstepc => Sys2Proof.Machine.execRstepc s
  | .rstepn n => Sys2Proof.Machine.execRstepn n s
  | .ksdrv d0 d1 d2 d3 => Sys2Proof.Machine.execKsdrv d0 d1 d2 d3 s
  | .ksexp => Sys2Proof.Machine.execKsexp s
  | .cstep => Sys2Proof.Machine.execCstep s
  | .cstepn n => Sys2Proof.Machine.execCstepn n s
  | .code op => Sys2Proof.Machine.execCode op s
  | .skip op => Sys2Proof.Machine.execSkip op s
  | .prd => Sys2Proof.Machine.execPrd s
  | .srd => Sys2Proof.Machine.execSrd s
  | .srst => Sys2Proof.Machine.execSrst s

end Sys2Proof.Machine
end

