-- ==== Sys2Proof/Machine/Transaction.lean ====
section
/-! DEFINITION. One transaction, wholly accepted or wholly rejected (30_encoding.md R120; 60_exceptions.md R304). -/

namespace Sys2Proof.Machine

/-- A legal transaction runs the command it encodes; any other is rejected, all conditions being checked before any state
changes (30_encoding.md R120; 60_exceptions.md R301). -/
def transact (cw : CmdWord) (ops : List Word) (s : State) : Result :=
  match decode cw ops with
  | .ok i => exec i s
  | .error _ => .next (reject cw s)

/-- What the block does on one host action (20_memory.md R72). -/
def perform (a : HostAction) (s : State) : Result :=
  match a with
  | .transaction cw ops => transact cw ops s
  | .reset => .next (resetBlock s)

/-- The host issues an action next, before those it already has to come. -/
def issueNext (a : HostAction) (s : State) : State := { s with actions := a :: s.actions }

end Sys2Proof.Machine
end

