-- ==== Sys2Proof/Machine/Step.lean ====
section
/-! DEFINITION. One step: the host's next action, performed as one indivisible transition (20_memory.md R80). -/

namespace Sys2Proof.Machine

/-- With no action pending the block waits and holds its state (20_memory.md R72; 60_exceptions.md R315); otherwise the
oldest pending action is taken and performed (20_memory.md R80). -/
def step (s : State) : Host.Outcome State Fault Refusal :=
  match nextAction s with
  | none => .next (idle s)
  | some (a, s') => perform a s'

/-- `s` with the transaction whose bits are the `nbits` low bits of `w` as the host's next action, so that the very next
step runs it (log entry 4). -/
def State.withFetchWord (s : State) (nbits w : Nat) : State :=
  issueNext (.transaction (tableTransaction nbits w).1 (tableTransaction nbits w).2) s

end Sys2Proof.Machine
end

