-- ==== Sys2Proof/Machine/Assembler.lean ====
section
/-! DEFINITION. The assembler syntax and the pseudo-instructions (30_encoding.md R125, R126). "A pseudo-instruction has no
encoding of its own": it expands to commands. A text is a list of characters; what R125 leaves open is log entry 5. -/

namespace Sys2Proof.Machine

/-- An operand of an assembler line: a register name or a number (30_encoding.md R125). -/
inductive AsmOperand where
  | reg (r : RegSel)
  | num (z : Int)
deriving DecidableEq, Repr

/-- The mnemonics of R125 and the pseudo-instructions of R126 (`ksdrvB` is `ksdrv.b`). -/
inductive AsmMnemonic where
  | nop | rld | rrd | rstep | rstepc | rstepn | ksdrv | ksexp | cstep | cstepn | code | skip | prd | srd | srst
  | ksbyte | ksdrvB | codebuf | seek | clr
deriving DecidableEq, Repr

/-! ### Operands: "An assembler refuses any other operand value" (30_encoding.md R125) -/

/-- A 64-bit word: 0 to 2^64 - 1 (DESIGN CHOICE, log entry 5). -/
def asmWord : AsmOperand → Option Word
  | .num z => if 0 ≤ z ∧ z ≤ 0xFFFFFFFFFFFFFFFF then some (BitVec.ofInt 64 z) else none
  | .reg _ => none

/-- `<n>`: 1 to 64. -/
def asmCount : AsmOperand → Option Nat
  | .num z => if 1 ≤ z ∧ z ≤ 64 then some z.toNat else none
  | .reg _ => none

/-- `<byte>`: 0 to 255. -/
def asmByte : AsmOperand → Option Byte
  | .num z => if 0 ≤ z ∧ z ≤ 255 then some (BitVec.ofInt 8 z) else none
  | .reg _ => none

/-- `<k>` "as 64-bit two's complement": -2^63 to 2^63 - 1 (DESIGN CHOICE, log entry 5). -/
def asmOffset : AsmOperand → Option Word
  | .num z => if -0x8000000000000000 ≤ z ∧ z ≤ 0x7FFFFFFFFFFFFFFF then some (BitVec.ofInt 64 z) else none
  | .reg _ => none

/-- All the operands as bytes, none when one of them is no byte. -/
def asmBytes : List AsmOperand → Option (List Byte)
  | [] => some []
  | o :: os =>
    match asmByte o, asmBytes os with
    | some d, some ds => some (d :: ds)
    | _, _ => none

/-- The commands of one line (30_encoding.md R125, R126); none where an assembler refuses the line. -/
def asmExpand (m : AsmMnemonic) (os : List AsmOperand) : Option (List Instr) :=
  match m, os with
  | .nop, [] => some [.nop]
  | .rld, [.reg r, h, l] =>
    match asmWord h, asmWord l with
    | some h, some l => some [.rld r h l]
    | _, _ => none
  | .rrd, [.reg r] => some [.rrd r]
  | .rstep, [.reg .b] => some [.rstep]
  | .rstepc, [.reg .b] => some [.rstepc]
  | .rstepn, [.reg .b, n] => (asmCount n).map fun n => [.rstepn n]
  | .ksdrv, [a, b, c, d] =>
    match asmWord a, asmWord b, asmWord c, asmWord d with
    | some a, some b, some c, some d => some [.ksdrv a b c d]
    | _, _, _, _ => none
  | .ksexp, [] => some [.ksexp]
  | .cstep, [] => some [.cstep]
  | .cstepn, [n] => (asmCount n).map fun n => [.cstepn n]
  | .code, [d] => (asmByte d).map fun d => [.code (zextByte d)]
  | .skip, [k] => (asmOffset k).map fun k => [.skip k]
  | .prd, [] => some [.prd]
  | .srd, [] => some [.srd]
  | .srst, [] => some [.srst]
  | .ksbyte, [] => some [.cstepn 8]
  | .ksdrvB, ds =>
    if ds.length = 32 then
      (asmBytes ds).map fun d => [.ksdrv (digestWord d 0) (digestWord d 1) (digestWord d 2) (digestWord d 3)]
    else none
  | .codebuf, d :: ds => (asmBytes (d :: ds)).map fun bs => bs.map fun b => .code (zextByte b)
  | .seek, [k] => (asmOffset k).map fun k => [.skip k]
  | .clr, [.reg r] => some [.rld r 0#64 0#64]
  | _, _ => none

/-- The transactions of one line: the encodings of its commands. -/
def assemble (m : AsmMnemonic) (os : List AsmOperand) : Option (List (CmdWord × List Word)) :=
  (asmExpand m os).map fun is => is.map encode

/-! ### Text: "a mnemonic in lower case followed by its operands separated by commas" (30_encoding.md R125) -/

/-- The spellings of the mnemonics. -/
def asmSpellings : List (List Char × AsmMnemonic) :=
  [("nop".toList, .nop), ("rld".toList, .rld), ("rrd".toList, .rrd), ("rstep".toList, .rstep), ("rstepc".toList, .rstepc),
   ("rstepn".toList, .rstepn), ("ksdrv".toList, .ksdrv), ("ksexp".toList, .ksexp), ("cstep".toList, .cstep),
   ("cstepn".toList, .cstepn)] ++
  [("code".toList, .code), ("skip".toList, .skip), ("prd".toList, .prd), ("srd".toList, .srd), ("srst".toList, .srst),
   ("ksbyte".toList, .ksbyte), ("ksdrv.b".toList, .ksdrvB), ("codebuf".toList, .codebuf), ("seek".toList, .seek),
   ("clr".toList, .clr)]

/-- The value of a digit, none when the character is no digit of the base; a hexadecimal digit may be in either case
(DESIGN CHOICE, log entry 5). -/
def asmDigit (base : Nat) (c : Char) : Option Nat :=
  let v := if '0' ≤ c ∧ c ≤ '9' then c.toNat - '0'.toNat
    else if 'a' ≤ c ∧ c ≤ 'f' then c.toNat - 'a'.toNat + 10
    else if 'A' ≤ c ∧ c ≤ 'F' then c.toNat - 'A'.toNat + 10
    else base
  if v < base then some v else none

/-- Digits to a number, `acc` being the value of the digits before them. -/
def asmDigits (base : Nat) : Nat → List Char → Option Nat
  | acc, [] => some acc
  | acc, c :: cs =>
    match asmDigit base c with
    | some v => asmDigits base (base * acc + v) cs
    | none => none

/-- A nonempty string of digits. -/
def asmNat (base : Nat) (cs : List Char) : Option Nat :=
  match cs with
  | [] => none
  | c :: cs => asmDigits base 0 (c :: cs)

/-- `r0`, `r1`, `r2`, `b`, a decimal number, a negative decimal number, or a `0x` hexadecimal number. A minus sign is read
before any decimal digits, whichever operand it is: so `-0` is the number 0 where R125 names no negative number, and a
minus sign before `0x` is refused (DESIGN CHOICE, log entry 5). -/
def asmOperand (cs : List Char) : Option AsmOperand :=
  match cs with
  | ['r', '0'] => some (.reg .r0)
  | ['r', '1'] => some (.reg .r1)
  | ['r', '2'] => some (.reg .r2)
  | ['b'] => some (.reg .b)
  | '0' :: 'x' :: ds => (asmNat 16 ds).map fun n => .num n
  | '-' :: ds => (asmNat 10 ds).map fun n => .num (-(n : Int))
  | ds => (asmNat 10 ds).map fun n => .num n

/-- The text without the spaces around it (DESIGN CHOICE, log entry 5). -/
def asmTrim (cs : List Char) : List Char :=
  ((cs.dropWhile (· == ' ')).reverse.dropWhile (· == ' ')).reverse

/-- The pieces of a text between its commas. -/
def asmSplit : List Char → List (List Char)
  | [] => [[]]
  | c :: cs =>
    if c = ',' then [] :: asmSplit cs
    else
      match asmSplit cs with
      | [] => [[c]]
      | w :: ws => (c :: w) :: ws

/-- All the pieces as operands, none when one of them is no operand. -/
def asmOperands : List (List Char) → Option (List AsmOperand)
  | [] => some []
  | w :: ws =>
    match asmOperand (asmTrim w), asmOperands ws with
    | some o, some os => some (o :: os)
    | _, _ => none

/-- One line of assembler text to its transactions; none where an assembler refuses it. -/
def assembleLine (line : List Char) : Option (List (CmdWord × List Word)) :=
  let text := asmTrim line
  let name := text.takeWhile (· != ' ')
  let rest := asmTrim (text.dropWhile (· != ' '))
  match asmSpellings.find? fun p => p.1 == name with
  | none => none
  | some p =>
    match (if rest = [] then some [] else asmOperands (asmSplit rest)) with
    | none => none
    | some os => assemble p.2 os

end Sys2Proof.Machine
end

