-- ==== Sys2Proof/Safety.lean ====
section
/-! DEFINITION. The terms claims are stated in: the sequences of a register and of the combiner (40_register.md R147;
44_combiner.md R213, R214), legality of a transaction written out from the rules (30_encoding.md R110 to R117), runs
(70_reset_and_hazards.md R361) and the status invariant (10_state.md R55). -/

namespace Sys2Proof.Machine

/-! ### Register and keystream sequences -/

/-- The 128-bit view S = HI:LO = HI * 2^64 + LO of a register (00_scope.md R15). -/
def regBits (r : Reg) : BitVec 128 := (r.hi.setWidth 128 <<< 64) ||| r.lo.setWidth 128

/-- The register after t steps. -/
def regAfter (r : Reg) (t : Nat) : Reg := lfsrNext^[t] r

/-- s_t: "the bit returned by the (t+1)-th step" (40_register.md R147). -/
def outBit (r : Reg) (t : Nat) : Bool := (regAfter r t).lo.getLsbD 0

/-- The combiner after t keystream bits. -/
def combAfter (c : Combiner) (t : Nat) : Combiner := (fun c => (combStep c).2)^[t] c

/-- Keystream bit t, counting from 0. -/
def keyBit (c : Combiner) (t : Nat) : Bool := (combStep (combAfter c t)).1

/-- The control bit of keystream bit t: R2's feedback bit (44_combiner.md R211). -/
def ctrlBit (c : Combiner) (t : Nat) : Bool := lfsrFb (combAfter c t).r2

/-- How many of the first m keystream bits had control 1 (44_combiner.md R213). -/
def ctrlCount (c : Combiner) : Nat → Nat
  | 0 => 0
  | m + 1 => ctrlCount c m + (ctrlBit c m).toNat

/-- `v` holds the n bits `f 0, f 1, …` most significant first, and nothing above them (40_register.md R145). -/
def HoldsMsbFirst (v : Word) (n : Nat) (f : Nat → Bool) : Prop :=
  (∀ j < n, v.getLsbD (n - 1 - j) = f j) ∧ ∀ j, n ≤ j → v.getLsbD j = false

/-- `v` is `w` with its 64 bits in the opposite order: bitrev64 of 40_register.md R147. -/
def IsBitrev64 (v w : Word) : Prop := ∀ j < 64, v.getLsbD (63 - j) = w.getLsbD j

/-! ### Legality, written out from the rules -/

/-- A transaction is accepted: it decodes to some command. -/
def Accepted (cw : CmdWord) (ops : List Word) : Prop := ∃ i, decode cw ops = .ok i

/-- Z1 and Z2 are zero (30_encoding.md R115). -/
def ReservedZero (cw : CmdWord) : Prop := cw.extractLsb' 10 6 = 0#6 ∧ cw.extractLsb' 23 9 = 0#9

/-- N is a count from 1 to 64 (30_encoding.md R114). -/
def CountField (cw : CmdWord) : Prop :=
  1 ≤ (cw.extractLsb' 16 7).toNat ∧ (cw.extractLsb' 16 7).toNat ≤ 64

/-- Issued in any state, the transaction is rejected: ILL is set, ERRCW takes the command word, the answer is (0, []), and
nothing else changes (60_exceptions.md R301). -/
def Rejects (cw : CmdWord) (ops : List Word) : Prop :=
  ∀ s rest, s.actions = .transaction cw ops :: rest →
    step s = .next { s with actions := rest, ill := true, errcw := cw, responses := s.responses ++ [⟨false, []⟩] }

/-- The "Encoding" and "Rejected when" lines of a command's rule: a transaction with this OPC is accepted when its reserved
bits are zero, RS and N meet the command's constraints and there are `k` operand words, and is rejected otherwise. -/
def CommandLegality (opc : BitVec 8) (rsOk : BitVec 2 → Prop) (nOk : BitVec 7 → Prop) (k : Nat) : Prop :=
  ∀ cw ops, cw.extractLsb' 0 8 = opc →
    (ReservedZero cw ∧ rsOk (cw.extractLsb' 8 2) ∧ nOk (cw.extractLsb' 16 7) ∧ ops.length = k → Accepted cw ops) ∧
    (¬ (ReservedZero cw ∧ rsOk (cw.extractLsb' 8 2) ∧ nOk (cw.extractLsb' 16 7) ∧ ops.length = k) → Rejects cw ops)

/-- The legality check of 30_encoding.md R120, with the values of R110, R111, R113, R114, R115 and R116 written out. -/
def Legal (cw : CmdWord) (ops : List Word) : Prop :=
  let opc := cw.extractLsb' 0 8
  let rs := cw.extractLsb' 8 2
  let n := cw.extractLsb' 16 7
  ReservedZero cw ∧
  ((opc ∈ [0x00#8, 0x11#8, 0x20#8, 0x40#8, 0x41#8, 0x7F#8] ∧ rs = 0#2 ∧ n = 0#7 ∧ ops.length = 0) ∨
   (opc = 0x01#8 ∧ n = 0#7 ∧ ops.length = 2) ∨
   (opc = 0x02#8 ∧ n = 0#7 ∧ ops.length = 0) ∨
   (opc ∈ [0x03#8, 0x04#8] ∧ rs = 3#2 ∧ n = 0#7 ∧ ops.length = 0) ∨
   (opc = 0x05#8 ∧ rs = 3#2 ∧ CountField cw ∧ ops.length = 0) ∨
   (opc = 0x10#8 ∧ rs = 0#2 ∧ n = 0#7 ∧ ops.length = 4) ∨
   (opc = 0x21#8 ∧ rs = 0#2 ∧ CountField cw ∧ ops.length = 0) ∨
   (opc ∈ [0x30#8, 0x31#8] ∧ rs = 0#2 ∧ n = 0#7 ∧ ops.length = 1))

/-- The condition of each row of the table of 60_exceptions.md R302, with the values written out. -/
def CauseHolds (c : RejectCause) (cw : CmdWord) (ops : List Word) : Prop :=
  let opc := cw.extractLsb' 0 8
  let rs := cw.extractLsb' 8 2
  let n := cw.extractLsb' 16 7
  match c with
  | .reservedOpcode => opc ∉ [0x00#8, 0x01#8, 0x02#8, 0x03#8, 0x04#8, 0x05#8, 0x10#8, 0x11#8, 0x20#8, 0x21#8, 0x30#8,
      0x31#8, 0x40#8, 0x41#8, 0x7F#8]
  | .reservedBit => ¬ ReservedZero cw
  | .rsNotB => opc ∈ [0x03#8, 0x04#8, 0x05#8] ∧ rs ≠ 3#2
  | .rsNotZero => opc ∈ [0x00#8, 0x10#8, 0x11#8, 0x20#8, 0x21#8, 0x30#8, 0x31#8, 0x40#8, 0x41#8, 0x7F#8] ∧ rs ≠ 0#2
  | .nNotZero => opc ∈ [0x00#8, 0x01#8, 0x02#8, 0x03#8, 0x04#8, 0x10#8, 0x11#8, 0x20#8, 0x30#8, 0x31#8, 0x40#8, 0x41#8,
      0x7F#8] ∧ n ≠ 0#7
  | .nOutOfRange => opc ∈ [0x05#8, 0x21#8] ∧ ¬ CountField cw
  | .operandCount =>
      (opc ∈ [0x00#8, 0x02#8, 0x03#8, 0x04#8, 0x05#8, 0x11#8, 0x20#8, 0x21#8, 0x40#8, 0x41#8, 0x7F#8] ∧ ops.length ≠ 0) ∨
      (opc ∈ [0x30#8, 0x31#8] ∧ ops.length ≠ 1) ∨ (opc = 0x01#8 ∧ ops.length ≠ 2) ∨ (opc = 0x10#8 ∧ ops.length ≠ 4)

/-- The row of each command in spec/opcode_table.json: (mask, match). -/
def tableRow : Opcode → CmdWord × CmdWord
  | .nop    => (0xFFFFFFFF#32, 0x00000000#32)
  | .rld    => (0xFFFFFCFF#32, 0x00000001#32)
  | .rrd    => (0xFFFFFCFF#32, 0x00000002#32)
  | .rstep  => (0xFFFFFFFF#32, 0x00000303#32)
  | .rstepc => (0xFFFFFFFF#32, 0x00000304#32)
  | .rstepn => (0xFF80FFFF#32, 0x00000305#32)
  | .ksdrv  => (0xFFFFFFFF#32, 0x00000010#32)
  | .ksexp  => (0xFFFFFFFF#32, 0x00000011#32)
  | .cstep  => (0xFFFFFFFF#32, 0x00000020#32)
  | .cstepn => (0xFF80FFFF#32, 0x00000021#32)
  | .code   => (0xFFFFFFFF#32, 0x00000030#32)
  | .skip   => (0xFFFFFFFF#32, 0x00000031#32)
  | .prd    => (0xFFFFFFFF#32, 0x00000040#32)
  | .srd    => (0xFFFFFFFF#32, 0x00000041#32)
  | .srst   => (0xFFFFFFFF#32, 0x0000007F#32)

/-- How many response words an accepted command answers (30_encoding.md R110). -/
def responseWords : Instr → Nat
  | .nop => 0
  | .rld _ _ _ => 0
  | .rrd _ => 2
  | .rstep => 1
  | .rstepc => 1
  | .rstepn _ => 1
  | .ksdrv _ _ _ _ => 0
  | .ksexp => 0
  | .cstep => 1
  | .cstepn _ => 1
  | .code _ => 1
  | .skip _ => 0
  | .prd => 1
  | .srd => 1
  | .srst => 0

/-! ### Who reads and writes what -/

/-- The commands that read a register (10_state.md R36). -/
def readsReg : Instr → RegSel → Bool
  | .nop, _ => false
  | .rld _ _ _, _ => false
  | .rrd rs, q => rs == q
  | .rstep, q => q == .b
  | .rstepc, q => q == .b
  | .rstepn _, q => q == .b
  | .ksdrv _ _ _ _, _ => false
  | .ksexp, q => q == .b
  | .cstep, q => q != .b
  | .cstepn _, q => q != .b
  | .code _, q => q != .b
  | .skip _, q => q != .b
  | .prd, _ => false
  | .srd, _ => false
  | .srst, _ => false

/-- The commands that write a register (10_state.md R36). -/
def writesReg : Instr → RegSel → Bool
  | .nop, _ => false
  | .rld rs _ _, q => rs == q
  | .rrd _, _ => false
  | .rstep, q => q == .b
  | .rstepc, q => q == .b
  | .rstepn _, q => q == .b
  | .ksdrv _ _ _ _, _ => true
  | .ksexp, _ => true
  | .cstep, q => q != .b
  | .cstepn _, q => q != .b
  | .code _, q => q != .b
  | .skip _, q => q != .b
  | .prd, _ => false
  | .srd, _ => false
  | .srst, _ => true

/-- POS after a command, from POS before it (10_state.md R50). -/
def posAfter : Instr → Word → Word
  | .nop, p => p
  | .rld rs _ _, p => if rs = .b then p else 0#64
  | .rrd _, p => p
  | .rstep, p => p
  | .rstepc, p => p
  | .rstepn _, p => p
  | .ksdrv _ _ _ _, _ => 0#64
  | .ksexp, _ => 0#64
  | .cstep, p => p + 1#64
  | .cstepn n, p => p + BitVec.ofNat 64 n
  | .code _, p => p + 8#64
  | .skip op, p => if 0 < op.toInt then p + 8#64 * op else p
  | .prd, p => p
  | .srd, p => p
  | .srst, _ => 0#64

/-! ### Runs -/

/-- The transaction that encodes an instruction. -/
def transactionOf (i : Instr) : HostAction := .transaction (encode i).1 (encode i).2

/-- The state with the given host actions to come. -/
def withActions (s : State) (acts : List HostAction) : State := { s with actions := acts }

/-- `n` steps from `s` end in `t`, with no fault and no refusal on the way. -/
def Runs (n : Nat) (s t : State) : Prop := Host.Core.run Sys2Proof.core n s = .next t

/-- How many of the actions are transactions: each is answered once (70_reset_and_hazards.md R361). -/
def transactionCount : List HostAction → Nat
  | [] => 0
  | .transaction _ _ :: rest => transactionCount rest + 1
  | .reset :: rest => transactionCount rest

/-- Two states agree on the whole architectural state (10_state.md R30). -/
def SameBlock (s t : State) : Prop :=
  s.r0 = t.r0 ∧ s.r1 = t.r1 ∧ s.r2 = t.r2 ∧ s.b = t.b ∧ s.pos = t.pos ∧ s.ill = t.ill ∧ s.errcw = t.errcw

/-! ### The status invariant -/

/-- STATUS and the host's answers agree (10_state.md R55; 60_exceptions.md R301): without ILL, ERRCW is 0; with ILL, the
host has been told of a rejection; and a rejection was answered with no words. -/
structure StatusInv (s : State) : Prop where
  clear : s.ill = false → s.errcw = 0#32
  told : s.ill = true → ∃ r ∈ s.responses, r.ok = false
  empty : ∀ r ∈ s.responses, r.ok = false → r.words = []

end Sys2Proof.Machine
end

