-- ==== Sys2Proof/Certificates/Slice0/Obligations.lean ====
section
/-! DEFINITION. The statements for the provers, from the numbered rules of spec/. Each docstring names the rule. A next
state is written as `{ s with … }`: what is not named is unchanged, so every statement of a result is its frame too. -/

open Sys2Proof Sys2Proof.Machine

/-! ### Encoding (30_encoding.md) -/

/-- Decoding the encoding of any well-formed instruction gives that instruction, with every operand (30_encoding.md
sections 2 to 4). -/
def Obligations.DecodeOfEncodeIsTheInstruction : Prop :=
  ∀ i, wellFormed i = true → decode (encode i).1 (encode i).2 = .ok i

/-- Every accepted transaction is the encoding of the one well-formed instruction it decodes to (30_encoding.md
sections 2 to 4). -/
def Obligations.EncodeOfDecodeIsTheTransaction : Prop :=
  ∀ cw ops i, decode cw ops = .ok i → wellFormed i = true ∧ encode i = (cw, ops)

/-- 30_encoding.md R101: where the fields of a command word lie, and that the reserved ones are 0 in every accepted word. -/
def Obligations.CommandWordFields : Prop :=
  (∀ cw : CmdWord,
    (∀ j < 8, (cwOpc cw).getLsbD j = cw.getLsbD j) ∧
    (∀ j < 2, (cwRs cw).getLsbD j = cw.getLsbD (8 + j)) ∧
    (∀ j < 6, (cwZ1 cw).getLsbD j = cw.getLsbD (10 + j)) ∧
    (∀ j < 7, (cwN cw).getLsbD j = cw.getLsbD (16 + j)) ∧
    (∀ j < 9, (cwZ2 cw).getLsbD j = cw.getLsbD (23 + j))) ∧
  (∀ opc rs n, (cmdWord opc rs n).toNat = opc.toNat + 2 ^ 8 * rs.toNat + 2 ^ 16 * n.toNat) ∧
  (∀ cw ops, Accepted cw ops → cwZ1 cw = 0#6 ∧ cwZ2 cw = 0#9)

/-- 30_encoding.md R111, R113, R114, R115, R116, R120: a transaction that meets every condition, with the values of the
rules written out, performs the command its opcode names; any other is rejected. -/
def Obligations.LegalityAndDispatch : Prop :=
  ∀ cw ops,
    (Legal cw ops → ∃ i, decode cw ops = .ok i ∧ (opRow (opcodeOfInstr i)).opc = cw.extractLsb' 0 8 ∧
      ∀ s rest, s.actions = .transaction cw ops :: rest → step s = exec i { s with actions := rest }) ∧
    (¬ Legal cw ops → Rejects cw ops)

/-- 30_encoding.md R117: the reserved opcodes are these ranges, each is rejected whatever else the transaction holds, and
every other opcode has an accepted transaction. -/
def Obligations.ReservedOpcodesAreRejected : Prop :=
  ∀ v : BitVec 8,
    let reserved := (0x06 ≤ v.toNat ∧ v.toNat ≤ 0x0F) ∨ (0x12 ≤ v.toNat ∧ v.toNat ≤ 0x1F) ∨
      (0x22 ≤ v.toNat ∧ v.toNat ≤ 0x2F) ∨ (0x32 ≤ v.toNat ∧ v.toNat ≤ 0x3F) ∨ (0x42 ≤ v.toNat ∧ v.toNat ≤ 0x7E) ∨
      (0x80 ≤ v.toNat ∧ v.toNat ≤ 0xFF)
    (reserved → ∀ cw ops, cw.extractLsb' 0 8 = v → Rejects cw ops) ∧
    (¬ reserved → ∃ cw ops, cw.extractLsb' 0 8 = v ∧ Accepted cw ops)

/-- The rows of spec/opcode_table.json: a transaction decodes to a command exactly when its word has the row's match under
the row's mask, its count is from 1 to 64 where the row has one, and it has the row's number of operand words. -/
def Obligations.OpcodeTableRowsSelectTheCommand : Prop :=
  ∀ cw ops o,
    (∃ i, decode cw ops = .ok i ∧ opcodeOfInstr i = o) ↔
      cw &&& (tableRow o).1 = (tableRow o).2 ∧ (o = .rstepn ∨ o = .cstepn → CountField cw) ∧
        ops.length = (opRow o).operands

/-- 30_encoding.md R121: every transaction decodes to exactly one command or to a rejection, and no two rows of the map
match one command word. -/
def Obligations.DecoderIsTotalAndUnambiguous : Prop :=
  (∀ cw ops, (∃! i, decode cw ops = .ok i ∧ wellFormed i = true) ∨
    ((∃ c, decode cw ops = .error c) ∧ Rejects cw ops)) ∧
  (∀ cw o o', cw &&& (tableRow o).1 = (tableRow o).2 → cw &&& (tableRow o').1 = (tableRow o').2 → o = o')

/-- 30_encoding.md R127: the encoding examples, as assembler text and as words, the rejected ones with the rule that rejects
them. -/
def Obligations.EncodingExamples : Prop :=
  assembleLine "rld r1, 0, 0xF".toList = some [(0x00000101#32, [0x0000000000000000#64, 0x000000000000000F#64])] ∧
  assembleLine "rstepn b, 64".toList = some [(0x00400305#32, [])] ∧
  assembleLine "cstepn 8".toList = some [(0x00080021#32, [])] ∧
  assembleLine "skip -1".toList = some [(0x00000031#32, [0xFFFFFFFFFFFFFFFF#64])] ∧
  decode 0x00000101#32 [0x0000000000000000#64, 0x000000000000000F#64] = .ok (.rld .r1 0#64 0xF#64) ∧
  decode 0x00400305#32 [] = .ok (.rstepn 64) ∧
  decode 0x00080021#32 [] = .ok (.cstepn 8) ∧
  decode 0x00000031#32 [0xFFFFFFFFFFFFFFFF#64] = .ok (.skip (BitVec.ofInt 64 (-1))) ∧
  decode 0x00000003#32 [] = .error .rsNotB ∧
  decode 0x00000305#32 [] = .error .nOutOfRange ∧
  decode 0x00000400#32 [] = .error .reservedBit

/-- 60_exceptions.md R302: a transaction is not accepted exactly when one of the listed causes holds, every cause leads to
the rejection of R301, and the example of each row is rejected for its cause. -/
def Obligations.RejectionCauses : Prop :=
  (∀ cw ops, ¬ Accepted cw ops ↔ ∃ c, CauseHolds c cw ops) ∧
  (∀ c cw ops, CauseHolds c cw ops → Rejects cw ops) ∧
  CauseHolds .reservedOpcode 0x00000006#32 [] ∧
  CauseHolds .reservedBit 0x00000400#32 [] ∧ CauseHolds .reservedBit 0x80000000#32 [] ∧
  CauseHolds .rsNotB 0x00000003#32 [] ∧
  CauseHolds .rsNotZero 0x00000120#32 [] ∧
  CauseHolds .nNotZero 0x00010020#32 [] ∧
  CauseHolds .nOutOfRange 0x00000021#32 [] ∧ CauseHolds .nOutOfRange 0x00410021#32 [] ∧
  ∀ w, CauseHolds .operandCount 0x00000001#32 [w]

/-- 30_encoding.md section 5 (R125): the command and operand words of each line of assembler syntax, with the operand values
an assembler refuses. The bounds on `<hi>`, `<lo>`, `<d>` and `<k>` are the model's reading (log entry 5). -/
def Obligations.AssemblerSyntax : Prop :=
  assemble .nop [] = some [(0x00000000#32, [])] ∧
  (∀ r (h l : Word), assemble .rld [.reg r, .num h.toNat, .num l.toNat] =
    some [(0x00000001#32 ||| (regSelCode r).setWidth 32 <<< 8, [h, l])]) ∧
  (∀ r, assemble .rrd [.reg r] = some [(0x00000002#32 ||| (regSelCode r).setWidth 32 <<< 8, [])]) ∧
  assemble .rstep [.reg .b] = some [(0x00000303#32, [])] ∧
  assemble .rstepc [.reg .b] = some [(0x00000304#32, [])] ∧
  (∀ n : Nat, 1 ≤ n → n ≤ 64 → assemble .rstepn [.reg .b, .num n] =
    some [(0x00000305#32 ||| BitVec.ofNat 32 n <<< 16, [])]) ∧
  (∀ d0 d1 d2 d3 : Word, assemble .ksdrv [.num d0.toNat, .num d1.toNat, .num d2.toNat, .num d3.toNat] =
    some [(0x00000010#32, [d0, d1, d2, d3])]) ∧
  assemble .ksexp [] = some [(0x00000011#32, [])] ∧
  assemble .cstep [] = some [(0x00000020#32, [])] ∧
  (∀ n : Nat, 1 ≤ n → n ≤ 64 → assemble .cstepn [.num n] = some [(0x00000021#32 ||| BitVec.ofNat 32 n <<< 16, [])]) ∧
  (∀ d : Byte, assemble .code [.num d.toNat] = some [(0x00000030#32, [d.setWidth 64])]) ∧
  (∀ k : Word, assemble .skip [.num k.toInt] = some [(0x00000031#32, [k])]) ∧
  assemble .prd [] = some [(0x00000040#32, [])] ∧
  assemble .srd [] = some [(0x00000041#32, [])] ∧
  assemble .srst [] = some [(0x0000007F#32, [])] ∧
  (∀ z : Int, z < 1 ∨ 64 < z → assemble .rstepn [.reg .b, .num z] = none ∧ assemble .cstepn [.num z] = none) ∧
  (∀ z : Int, z < 0 ∨ 255 < z → assemble .code [.num z] = none) ∧
  (∀ r, r ≠ .b → assemble .rstep [.reg r] = none ∧ assemble .rstepc [.reg r] = none ∧
    ∀ z, assemble .rstepn [.reg r, .num z] = none)

/-- 30_encoding.md R126: what each pseudo-instruction expands to. `ds` is the 32 digest bytes, packed as 20_memory.md R73. -/
def Obligations.PseudoInstructions : Prop :=
  assemble .ksbyte [] = assemble .cstepn [.num 8] ∧
  (∀ ds : List Byte, ds.length = 32 →
    assemble .ksdrvB (ds.map fun d => .num d.toNat) =
      assemble .ksdrv [.num (digestWord ds 0).toNat, .num (digestWord ds 1).toNat, .num (digestWord ds 2).toNat,
        .num (digestWord ds 3).toNat]) ∧
  (∀ bs : List Byte, bs ≠ [] →
    assemble .codebuf (bs.map fun b => .num b.toNat) = some (bs.map fun b => (0x00000030#32, [b.setWidth 64]))) ∧
  (∀ k, assemble .seek [k] = assemble .skip [k]) ∧
  (∀ r, assemble .clr [.reg r] = assemble .rld [.reg r, .num 0, .num 0])

/-- 20_memory.md R73: word j of the 32 digest bytes holds bytes d[8j] to d[8j+7], d[8j] least significant. -/
def Obligations.DigestPacking : Prop :=
  ∀ d : List Byte, d.length = 32 → ∀ j < 4,
    let byte := fun i => ((d.getD (8 * j + i) 0#8).setWidth 64 : Word)
    digestWord d j = byte 0 ||| byte 1 <<< 8 ||| byte 2 <<< 16 ||| byte 3 <<< 24 ||| byte 4 <<< 32 ||| byte 5 <<< 40 |||
      byte 6 <<< 48 ||| byte 7 <<< 56

/-! ### Steps, rejection, reset and runs -/

/-- 30_encoding.md section 4, 20_memory.md section 3: when the host's next transaction decodes to `i`, the step is `exec i`
in the state without that transaction. -/
def Obligations.StepRunsTheDecodedInstruction : Prop :=
  ∀ s cw ops rest i, s.actions = .transaction cw ops :: rest → decode cw ops = .ok i →
    step s = exec i { s with actions := rest }

/-- 60_exceptions.md R301, R305: a transaction that decodes to no command changes STATUS and nothing else of the block. -/
def Obligations.RejectionChangesOnlyStatus : Prop :=
  ∀ s cw ops rest c, s.actions = .transaction cw ops :: rest → decode cw ops = .error c →
    step s = .next { s with actions := rest, ill := true, errcw := cw, responses := s.responses ++ [⟨false, []⟩] }

/-- 70_reset_and_hazards.md R341: the reset input sets every piece of state, whatever the state was, without a response; then
the block waits; SRST has the same effect on state. -/
def Obligations.ResetInput : Prop :=
  (∀ s rest, s.actions = .reset :: rest →
    step s = .next {
        r0 := ⟨0#64, 0#64⟩, r1 := ⟨0#64, 0#64⟩, r2 := ⟨0#64, 0#64⟩, b := ⟨0#64, 0#64⟩, pos := 0#64, ill := false,
        errcw := 0#32, actions := rest, responses := s.responses }) ∧
  (∀ s n, s.actions = [.reset] → ∃ t, Runs 1 s t ∧ Runs n t t) ∧
  (∀ s rest t, s.actions = .reset :: rest → step s = .next t → ∃ u, exec .srst s = .next u ∧ SameBlock t u)

/-- 10_state.md R62: the value of every piece of state after reset and after SRST. -/
def Obligations.ResetValues : Prop :=
  (State.reset.r0 = ⟨0#64, 0#64⟩ ∧ State.reset.r1 = ⟨0#64, 0#64⟩ ∧ State.reset.r2 = ⟨0#64, 0#64⟩ ∧
    State.reset.b = ⟨0#64, 0#64⟩ ∧ State.reset.pos = 0#64 ∧ State.reset.ill = false ∧ State.reset.errcw = 0#32) ∧
  ∀ s, ∃ t, exec .srst s = .next t ∧ SameBlock t State.reset

/-- 60_exceptions.md section 3 (R315), 20_memory.md section 2 (R72): between transactions the block holds its state. That a
step waits is the model's reading (log entry 6). -/
def Obligations.WaitingBlockHoldsItsState : Prop :=
  ∀ s n, s.actions = [] → Runs n s s

/-- 60_exceptions.md R300: every command completes, on every operand, in every state, with its number of response words. -/
def Obligations.EveryCommandCompletes : Prop :=
  ∀ i s, ∃ t ws, exec i s = .next t ∧ ws.length = responseWords i ∧ t.actions = s.actions ∧
    t.responses = s.responses ++ [⟨true, ws⟩]

/-- 70_reset_and_hazards.md R361: from any state, any finite sequence of host actions is performed to its end, with one
response for each transaction and none for a reset. -/
def Obligations.RunAnswersEveryTransaction : Prop :=
  ∀ acts s, ∃ t rs, Runs acts.length (withActions s acts) t ∧ t.actions = [] ∧
    t.responses = s.responses ++ rs ∧ rs.length = transactionCount acts

/-- 20_memory.md R81: a sequence of host actions has the effect of its first part followed by its second, and the first part
does not see the second. -/
def Obligations.RunIsLeftToRightComposition : Prop :=
  ∀ xs ys s, ∃ t u, Runs xs.length (withActions s xs) (withActions t []) ∧
    Runs xs.length (withActions s (xs ++ ys)) (withActions t ys) ∧
    Runs ys.length (withActions t ys) u ∧ Runs (xs.length + ys.length) (withActions s (xs ++ ys)) u

/-! ### Whole-machine rules -/

/-- 10_state.md section 4 (R55), 60_exceptions.md R301: every step keeps the status invariant. -/
def Obligations.StepKeepsStatusInvariant : Prop :=
  ∀ s t, StatusInv s → step s = .next t → StatusInv t

/-- 10_state.md R62: the status invariant holds after reset. -/
def Obligations.ResetHasStatusInvariant : Prop :=
  StatusInv State.reset

/-- 10_state.md R55: the layout of STATUS as SRD reads it, that a rejection sets ILL and ERRCW, and that no accepted command
but SRST changes either; after SRST and reset both are 0. -/
def Obligations.StatusRegister : Prop :=
  (∀ s, ∃ v : Word, exec .srd s = .next { s with responses := s.responses ++ [⟨true, [v]⟩] } ∧
    v.getLsbD 0 = s.ill ∧ (∀ j, 1 ≤ j → j < 32 → v.getLsbD j = false) ∧ v.extractLsb' 32 32 = s.errcw) ∧
  (∀ cw ops, ¬ Accepted cw ops → Rejects cw ops) ∧
  (∀ i s, i ≠ .srst → ∃ t, exec i s = .next t ∧ t.ill = s.ill ∧ t.errcw = s.errcw) ∧
  (∀ s, ∃ t, exec .srst s = .next t ∧ t.ill = false ∧ t.errcw = 0#32) ∧
  (∀ s rest, s.actions = .reset :: rest → ∃ t, step s = .next t ∧ t.ill = false ∧ t.errcw = 0#32)

/-- 60_exceptions.md R306: ILL stays 1 over every step but a reset and an accepted SRST, and a second rejection overwrites
ERRCW. -/
def Obligations.IllIsSticky : Prop :=
  (∀ s, s.ill = true → (∀ rest, s.actions ≠ .reset :: rest) →
    (∀ cw ops rest, s.actions = .transaction cw ops :: rest → decode cw ops ≠ .ok .srst) →
    ∃ t, step s = .next t ∧ t.ill = true) ∧
  (∀ s cw ops cw' ops', s.actions = [.transaction cw ops, .transaction cw' ops'] → ¬ Accepted cw ops →
    ¬ Accepted cw' ops' → ∃ t, Runs 2 s t ∧ t.ill = true ∧ t.errcw = cw')

/-- 10_state.md R36: a command writes no register but those the table lists for it, and reads none but those: with any other
register changed beforehand, the command does the same and leaves that register as it is (or overwrites it). -/
def Obligations.RegisterAccess : Prop :=
  ∀ i s, ∃ t, exec i s = .next t ∧
    (∀ q, writesReg i q = false → readReg t q = readReg s q) ∧
    (∀ q x, readsReg i q = false →
      exec i (writeReg s q x) = .next (if writesReg i q = true then t else writeReg t q x))

/-- 10_state.md R50: what each command, a rejection and reset do to POS. -/
def Obligations.PosRule : Prop :=
  (∀ i s, ∃ t, exec i s = .next t ∧ t.pos = posAfter i s.pos) ∧
  (∀ cw ops s rest, ¬ Accepted cw ops → s.actions = .transaction cw ops :: rest →
    ∃ t, step s = .next t ∧ t.pos = s.pos) ∧
  (∀ s rest, s.actions = .reset :: rest → ∃ t, step s = .next t ∧ t.pos = 0#64)

/-- 10_state.md R51: no command but PRD reads POS: started from another POS, it answers the same words and leaves the same
state but for POS. -/
def Obligations.OnlyPrdReadsPos : Prop :=
  ∀ i s p, i ≠ .prd → ∃ t p', exec i s = .next t ∧ exec i { s with pos := p } = .next { t with pos := p' }

/-- 20_memory.md section 2 (R78): NOP, RRD, PRD and SRD change no state, and repeating one gives the same response. -/
def Obligations.ReadCommandsChangeNoState : Prop :=
  ∀ i s, i = .nop ∨ (∃ q, i = .rrd q) ∨ i = .prd ∨ i = .srd →
    ∃ r, exec i s = .next { s with responses := s.responses ++ [r] } ∧
      exec i { s with responses := s.responses ++ [r] } = .next { s with responses := s.responses ++ [r] ++ [r] }

/-! ### The Register (40_register.md) -/

/-- 40_register.md R143, R144, R145: step and step_carry return the bit shifted out and the feedback bit and leave the same
register; step_n returns its n bits most significant first, below 2^n, and leaves what n steps leave. -/
def Obligations.RegisterStepFunctions : Prop :=
  (∀ r, lfsrStep r = (r.lo.getLsbD 0, lfsrNext r)) ∧
  (∀ r, lfsrStepCarry r =
    (r.lo.getLsbD 0 ^^ r.lo.getLsbD 1 ^^ r.lo.getLsbD 2 ^^ r.lo.getLsbD 7, lfsrNext r)) ∧
  (∀ r n, 1 ≤ n → n ≤ 64 → (lfsrStepN r n).2 = (fun x => (lfsrStep x).2)^[n] r ∧
    (lfsrStepN r n).1.toNat < 2 ^ n ∧
    ∀ j < n, (lfsrStepN r n).1.getLsbD (n - 1 - j) = (lfsrStep ((fun x => (lfsrStep x).2)^[j] r)).1)

/-- 40_register.md R146: in the 128-bit view a step is a right shift by one with the feedback bit at bit 127. -/
def Obligations.RegisterShiftsByOne : Prop :=
  ∀ r, lfsrFb r = ((regBits r).getLsbD 0 ^^ (regBits r).getLsbD 1 ^^ (regBits r).getLsbD 2 ^^ (regBits r).getLsbD 7) ∧
    regBits (lfsrNext r) = (regBits r >>> 1) ||| ((BitVec.ofBool (lfsrFb r)).setWidth 128 <<< 127) ∧
    (∀ i < 64, (lfsrNext r).lo.getLsbD i = (regBits r).getLsbD (i + 1)) ∧
    (∀ i < 63, (lfsrNext r).hi.getLsbD i = (regBits r).getLsbD (i + 65)) ∧ (lfsrNext r).hi.getLsbD 63 = lfsrFb r

/-- 40_register.md R147: the output sequence, the state and the feedback bit in terms of it, and what two step_n(64) return
from a fresh state. -/
def Obligations.RegisterOutputSequence : Prop :=
  ∀ r,
    (∀ t < 128, outBit r t = (regBits r).getLsbD t) ∧
    (∀ t, outBit r (t + 128) = (outBit r t ^^ outBit r (t + 1) ^^ outBit r (t + 2) ^^ outBit r (t + 7))) ∧
    (∀ t, ∀ i < 128, (regBits (regAfter r t)).getLsbD i = outBit r (t + i)) ∧
    (∀ t, (lfsrStepCarry (regAfter r t)).1 = outBit r (t + 128)) ∧
    IsBitrev64 (lfsrStepN r 64).1 r.lo ∧ IsBitrev64 (lfsrStepN (lfsrStepN r 64).2 64).1 r.hi

/-- 40_register.md R148: the all-zero register is the only fixed point and outputs zeros for ever, a step is a bijection, whose
inverse is written out, and a nonzero register never reaches zero. -/
def Obligations.RegisterFixedPointAndBijection : Prop :=
  (∀ t, regAfter ⟨0#64, 0#64⟩ t = ⟨0#64, 0#64⟩ ∧ outBit ⟨0#64, 0#64⟩ t = false) ∧
  (∀ r, lfsrNext r = r → r = ⟨0#64, 0#64⟩) ∧
  Function.Bijective lfsrNext ∧
  (∀ r, (∀ i < 127, (regBits r).getLsbD (i + 1) = (regBits (lfsrNext r)).getLsbD i) ∧
    (regBits r).getLsbD 0 = ((regBits (lfsrNext r)).getLsbD 127 ^^ (regBits r).getLsbD 1 ^^ (regBits r).getLsbD 2 ^^
      (regBits r).getLsbD 7)) ∧
  (∀ r t, r ≠ ⟨0#64, 0#64⟩ → regAfter r t ≠ ⟨0#64, 0#64⟩)

/-! ### The Register commands (40_register.md section 3) -/

/-- 40_register.md R150: RLD, its encoding, effect and rejection. -/
def Obligations.RldLoadsTheSelectedRegister : Prop :=
  CommandLegality 0x01#8 (fun _ => True) (· = 0#7) 2 ∧
  (∀ rs hi lo, decode (0x00000001#32 ||| (regSelCode rs).setWidth 32 <<< 8) [hi, lo] = .ok (.rld rs hi lo)) ∧
  ∀ hi lo s,
    exec (.rld .r0 hi lo) s =
      .next { s with r0 := ⟨hi, lo⟩, pos := 0#64, responses := s.responses ++ [⟨true, []⟩] } ∧
    exec (.rld .r1 hi lo) s =
      .next { s with r1 := ⟨hi, lo⟩, pos := 0#64, responses := s.responses ++ [⟨true, []⟩] } ∧
    exec (.rld .r2 hi lo) s =
      .next { s with r2 := ⟨hi, lo⟩, pos := 0#64, responses := s.responses ++ [⟨true, []⟩] } ∧
    exec (.rld .b hi lo) s = .next { s with b := ⟨hi, lo⟩, responses := s.responses ++ [⟨true, []⟩] }

/-- 40_register.md R151: RRD, its encoding, effect and rejection; HI first. -/
def Obligations.RrdReadsTheSelectedRegister : Prop :=
  CommandLegality 0x02#8 (fun _ => True) (· = 0#7) 0 ∧
  (∀ rs, decode (0x00000002#32 ||| (regSelCode rs).setWidth 32 <<< 8) [] = .ok (.rrd rs)) ∧
  ∀ s,
    exec (.rrd .r0) s = .next { s with responses := s.responses ++ [⟨true, [s.r0.hi, s.r0.lo]⟩] } ∧
    exec (.rrd .r1) s = .next { s with responses := s.responses ++ [⟨true, [s.r1.hi, s.r1.lo]⟩] } ∧
    exec (.rrd .r2) s = .next { s with responses := s.responses ++ [⟨true, [s.r2.hi, s.r2.lo]⟩] } ∧
    exec (.rrd .b) s = .next { s with responses := s.responses ++ [⟨true, [s.b.hi, s.b.lo]⟩] }

/-- 40_register.md R152: RSTEP, its encoding, effect and rejection. -/
def Obligations.RstepReturnsTheShiftedOutBit : Prop :=
  CommandLegality 0x03#8 (· = 3#2) (· = 0#7) 0 ∧ decode 0x00000303#32 [] = .ok .rstep ∧
  ∀ s,
    let fb := s.b.lo.getLsbD 0 ^^ s.b.lo.getLsbD 1 ^^ s.b.lo.getLsbD 2 ^^ s.b.lo.getLsbD 7
    ∃ b', exec .rstep s =
      .next { s with b := b', responses := s.responses ++ [⟨true, [if s.b.lo.getLsbD 0 then 1#64 else 0#64]⟩] } ∧
    regBits b' = (regBits s.b >>> 1) ||| ((BitVec.ofBool fb).setWidth 128 <<< 127)

/-- 40_register.md R153: RSTEPC, its encoding, effect and rejection; the register becomes what RSTEP leaves. -/
def Obligations.RstepcReturnsTheFeedbackBit : Prop :=
  CommandLegality 0x04#8 (· = 3#2) (· = 0#7) 0 ∧ decode 0x00000304#32 [] = .ok .rstepc ∧
  ∀ s,
    let fb := s.b.lo.getLsbD 0 ^^ s.b.lo.getLsbD 1 ^^ s.b.lo.getLsbD 2 ^^ s.b.lo.getLsbD 7
    ∃ b', exec .rstepc s =
      .next { s with b := b', responses := s.responses ++ [⟨true, [if fb then 1#64 else 0#64]⟩] } ∧
    regBits b' = (regBits s.b >>> 1) ||| ((BitVec.ofBool fb).setWidth 128 <<< 127) ∧
    ∃ t, exec .rstep s = .next t ∧ t.b = b'

/-- 40_register.md R154: RSTEPN, its encoding, effect and rejection. -/
def Obligations.RstepnReturnsTheBitsMsbFirst : Prop :=
  CommandLegality 0x05#8 (· = 3#2) (fun n => 1 ≤ n.toNat ∧ n.toNat ≤ 64) 0 ∧
  ∀ n, 1 ≤ n → n ≤ 64 →
    decode (0x00000305#32 ||| BitVec.ofNat 32 n <<< 16) [] = .ok (.rstepn n) ∧
    ∀ s, ∃ v, exec (.rstepn n) s =
        .next { s with b := lfsrNext^[n] s.b, responses := s.responses ++ [⟨true, [v]⟩] } ∧
      HoldsMsbFirst v n fun j => (lfsrNext^[j] s.b).lo.getLsbD 0

/-! ### The key schedule (42_key_schedule.md) -/

/-- 42_key_schedule.md R190: KSDRV, its encoding, effect and rejection. D2 and D3 do not occur in the result. -/
def Obligations.KsdrvSeedsTheCombiner : Prop :=
  CommandLegality 0x10#8 (· = 0#2) (· = 0#7) 4 ∧
  (∀ d0 d1 d2 d3, decode 0x00000010#32 [d0, d1, d2, d3] = .ok (.ksdrv d0 d1 d2 d3)) ∧
  ∀ d0 d1, ∃ w0 w1 w2 w3 w4 w5 : Word,
    (∀ d2 d3 s, exec (.ksdrv d0 d1 d2 d3) s =
      .next { s with
          r0 := ⟨w0, w1⟩, r1 := ⟨w2, w3⟩, r2 := ⟨w4, w5⟩, b := ⟨0#64, 0#64⟩, pos := 0#64,
          responses := s.responses ++ [⟨true, []⟩] }) ∧
    ∀ j < 64,
      w0.getLsbD (63 - j) = outBit ⟨d0, d1⟩ j ∧ w1.getLsbD (63 - j) = outBit ⟨d0, d1⟩ (64 + j) ∧
      w2.getLsbD (63 - j) = outBit ⟨d0, d1⟩ (128 + j) ∧ w3.getLsbD (63 - j) = outBit ⟨d0, d1⟩ (192 + j) ∧
      w4.getLsbD (63 - j) = outBit ⟨d0, d1⟩ (256 + j) ∧ w5.getLsbD (63 - j) = outBit ⟨d0, d1⟩ (320 + j)

/-- 42_key_schedule.md R191: KSEXP, its encoding, effect and rejection; what it expands is B as it stands, and after RLD B of
D0, D1 it leaves the state KSDRV leaves. -/
def Obligations.KsexpExpandsB : Prop :=
  CommandLegality 0x11#8 (· = 0#2) (· = 0#7) 0 ∧ decode 0x00000011#32 [] = .ok .ksexp ∧
  (∀ b, ∃ w0 w1 w2 w3 w4 w5 : Word,
    (∀ s, s.b = b → exec .ksexp s =
      .next { s with
          r0 := ⟨w0, w1⟩, r1 := ⟨w2, w3⟩, r2 := ⟨w4, w5⟩, b := ⟨0#64, 0#64⟩, pos := 0#64,
          responses := s.responses ++ [⟨true, []⟩] }) ∧
    ∀ j < 64,
      w0.getLsbD (63 - j) = outBit b j ∧ w1.getLsbD (63 - j) = outBit b (64 + j) ∧
      w2.getLsbD (63 - j) = outBit b (128 + j) ∧ w3.getLsbD (63 - j) = outBit b (192 + j) ∧
      w4.getLsbD (63 - j) = outBit b (256 + j) ∧ w5.getLsbD (63 - j) = outBit b (320 + j)) ∧
  ∀ s d0 d1 d2 d3, ∃ t u,
    Runs 1 (withActions s [transactionOf (.ksdrv d0 d1 d2 d3)]) t ∧
    Runs 2 (withActions s [transactionOf (.rld .b d0 d1), transactionOf .ksexp]) u ∧ SameBlock t u

/-- 42_key_schedule.md R186: R0 is the seed with its bits reversed, and R1 and R2 are the feedback bits of the bootstrap
sequence, 64 a word, first bit most significant. -/
def Obligations.ExpansionOfTheSeedBits : Prop :=
  ∀ s, ∃ w0 w1 w2 w3 w4 w5 : Word, ∃ t, exec .ksexp s = .next t ∧
    t.r0 = ⟨w0, w1⟩ ∧ t.r1 = ⟨w2, w3⟩ ∧ t.r2 = ⟨w4, w5⟩ ∧
    IsBitrev64 w0 s.b.lo ∧ IsBitrev64 w1 s.b.hi ∧
    ∀ j < 64,
      w2.getLsbD (63 - j) = lfsrFb (regAfter s.b j) ∧ w3.getLsbD (63 - j) = lfsrFb (regAfter s.b (64 + j)) ∧
      w4.getLsbD (63 - j) = lfsrFb (regAfter s.b (128 + j)) ∧ w5.getLsbD (63 - j) = lfsrFb (regAfter s.b (192 + j))

/-- 42_key_schedule.md R187: a zero seed gives the all-zero combiner, and the block accepts it. -/
def Obligations.ZeroSeedGivesTheZeroCombiner : Prop :=
  (∀ d2 d3 s, exec (.ksdrv 0#64 0#64 d2 d3) s =
    .next { s with
        r0 := ⟨0#64, 0#64⟩, r1 := ⟨0#64, 0#64⟩, r2 := ⟨0#64, 0#64⟩, b := ⟨0#64, 0#64⟩, pos := 0#64,
        responses := s.responses ++ [⟨true, []⟩] }) ∧
  (∀ s, s.b = ⟨0#64, 0#64⟩ → exec .ksexp s =
    .next { s with
        r0 := ⟨0#64, 0#64⟩, r1 := ⟨0#64, 0#64⟩, r2 := ⟨0#64, 0#64⟩, b := ⟨0#64, 0#64⟩, pos := 0#64,
        responses := s.responses ++ [⟨true, []⟩] })

/-- 42_key_schedule.md R181: KSDRV of 32 packed digest bytes expands the seed made of the first sixteen, each half least
significant byte first, and the other sixteen affect no state and no response. -/
def Obligations.SeedIsTheFirstSixteenDigestBytes : Prop :=
  ∀ (d : List Byte) s, d.length = 32 →
    let byte := fun i => ((d.getD i 0#8).setWidth 64 : Word)
    let seedHigh := byte 0 ||| byte 1 <<< 8 ||| byte 2 <<< 16 ||| byte 3 <<< 24 ||| byte 4 <<< 32 ||| byte 5 <<< 40 |||
      byte 6 <<< 48 ||| byte 7 <<< 56
    let seedLow := byte 8 ||| byte 9 <<< 8 ||| byte 10 <<< 16 ||| byte 11 <<< 24 ||| byte 12 <<< 32 ||| byte 13 <<< 40 |||
      byte 14 <<< 48 ||| byte 15 <<< 56
    ∃ t, exec (.ksdrv (digestWord d 0) (digestWord d 1) (digestWord d 2) (digestWord d 3)) s = .next t ∧
      exec .ksexp { s with b := ⟨seedHigh, seedLow⟩ } = .next t ∧
      ∀ d' : List Byte, d'.length = 32 → d'.take 16 = d.take 16 →
        exec (.ksdrv (digestWord d' 0) (digestWord d' 1) (digestWord d' 2) (digestWord d' 3)) s = .next t

/-! ### The combiner (44_combiner.md) -/

/-- 44_combiner.md R220: CSTEP, its encoding, effect and rejection; the step itself is R211 written out. -/
def Obligations.CstepProducesOneKeystreamBit : Prop :=
  CommandLegality 0x20#8 (· = 0#2) (· = 0#7) 0 ∧ decode 0x00000020#32 [] = .ok .cstep ∧
  ∀ s,
    let r0 := s.r0.lo.getLsbD 0
    let r1 := s.r1.lo.getLsbD 0
    let ctrl := s.r2.lo.getLsbD 0 ^^ s.r2.lo.getLsbD 1 ^^ s.r2.lo.getLsbD 2 ^^ s.r2.lo.getLsbD 7
    exec .cstep s = .next { s with
      r0 := if ctrl then lfsrNext (lfsrNext s.r0) else lfsrNext s.r0,
      r1 := if ctrl then lfsrNext (lfsrNext (lfsrNext s.r1)) else lfsrNext s.r1,
      r2 := lfsrNext s.r2,
      pos := s.pos + 1#64,
      responses := s.responses ++ [⟨true, [if r0 ^^ r1 then 1#64 else 0#64]⟩] }

/-- 44_combiner.md R221: CSTEPN, its encoding, effect and rejection; CSTEPN 1 is CSTEP, and CSTEPN N then CSTEPN M is
CSTEPN (N + M), with the same bits. -/
def Obligations.CstepnProducesTheBitsMsbFirst : Prop :=
  CommandLegality 0x21#8 (· = 0#2) (fun n => 1 ≤ n.toNat ∧ n.toNat ≤ 64) 0 ∧
  (∀ n, 1 ≤ n → n ≤ 64 →
    decode (0x00000021#32 ||| BitVec.ofNat 32 n <<< 16) [] = .ok (.cstepn n) ∧
    ∀ s, ∃ v, exec (.cstepn n) s =
        .next { s with
            r0 := (combAfter (combiner s) n).r0, r1 := (combAfter (combiner s) n).r1,
            r2 := (combAfter (combiner s) n).r2, pos := s.pos + BitVec.ofNat 64 n,
            responses := s.responses ++ [⟨true, [v]⟩] } ∧
      HoldsMsbFirst v n (keyBit (combiner s))) ∧
  (∀ s, exec (.cstepn 1) s = exec .cstep s) ∧
  (∀ n m s, 1 ≤ n → 1 ≤ m → n + m ≤ 64 → ∃ v w t u u',
    exec (.cstepn n) s = .next t ∧ t.responses = s.responses ++ [⟨true, [v]⟩] ∧
    exec (.cstepn m) t = .next u ∧ u.responses = t.responses ++ [⟨true, [w]⟩] ∧
    exec (.cstepn (n + m)) s = .next u' ∧ u'.responses = s.responses ++ [⟨true, [v <<< m ||| w]⟩] ∧ SameBlock u u')

/-- 44_combiner.md R213: over m keystream bits of which c had control 1, R2 takes m steps, R0 m + c and R1 m + 2c. -/
def Obligations.CombinerClockCounts : Prop :=
  ∀ c m, combAfter c m = ⟨lfsrNext^[m + ctrlCount c m] c.r0, lfsrNext^[m + 2 * ctrlCount c m] c.r1, lfsrNext^[m] c.r2⟩

/-- 44_combiner.md R214: R2 does not depend on R0 or R1, and the control bit of keystream bit t is s_(t+128) of R2's own
sequence. -/
def Obligations.ControlRegisterRunsFree : Prop :=
  ∀ c m, (combAfter c m).r2 = lfsrNext^[m] c.r2 ∧ ctrlBit c m = outBit c.r2 (m + 128)

/-- 44_combiner.md R215: the all-zero combiner stays zero, outputs zeros for ever and CODE returns its data byte; R0 and R1
zero give the zero keystream whatever R2 holds; one of them zero gives the other's decimated output. -/
def Obligations.ZeroCombiner : Prop :=
  (∀ m, combAfter ⟨⟨0#64, 0#64⟩, ⟨0#64, 0#64⟩, ⟨0#64, 0#64⟩⟩ m = ⟨⟨0#64, 0#64⟩, ⟨0#64, 0#64⟩, ⟨0#64, 0#64⟩⟩ ∧
    ctrlBit ⟨⟨0#64, 0#64⟩, ⟨0#64, 0#64⟩, ⟨0#64, 0#64⟩⟩ m = false) ∧
  (∀ s op, s.r0 = ⟨0#64, 0#64⟩ → s.r1 = ⟨0#64, 0#64⟩ → s.r2 = ⟨0#64, 0#64⟩ → exec (.code op) s =
    .next { s with pos := s.pos + 8#64, responses := s.responses ++ [⟨true, [op &&& 0xFF#64]⟩] }) ∧
  (∀ r2 t, keyBit ⟨⟨0#64, 0#64⟩, ⟨0#64, 0#64⟩, r2⟩ t = false) ∧
  (∀ r0 r2 t, keyBit ⟨r0, ⟨0#64, 0#64⟩, r2⟩ t = (combAfter ⟨r0, ⟨0#64, 0#64⟩, r2⟩ t).r0.lo.getLsbD 0) ∧
  (∀ r1 r2 t, keyBit ⟨⟨0#64, 0#64⟩, r1, r2⟩ t = (combAfter ⟨⟨0#64, 0#64⟩, r1, r2⟩ t).r1.lo.getLsbD 0)

/-- 40_register.md section 2 (R148), 70_reset_and_hazards.md section 2 (R346): no step command makes a nonzero register
zero. -/
def Obligations.SteppingKeepsRegistersNonzero : Prop :=
  ∀ i s q, (i = .rstep ∨ i = .rstepc ∨ (∃ n, i = .rstepn n) ∨ i = .cstep ∨ (∃ n, i = .cstepn n) ∨
      (∃ op, i = .code op) ∨ (∃ op, i = .skip op)) →
    readReg s q ≠ ⟨0#64, 0#64⟩ → ∃ t, exec i s = .next t ∧ readReg t q ≠ ⟨0#64, 0#64⟩

/-! ### The stream (46_stream.md) -/

/-- 46_stream.md R250: CODE, its encoding, effect and rejection; only bits 7:0 of the operand word are read. -/
def Obligations.CodeXorsOneByte : Prop :=
  CommandLegality 0x30#8 (· = 0#2) (· = 0#7) 1 ∧ (∀ op, decode 0x00000030#32 [op] = .ok (.code op)) ∧
  ∀ op s, ∃ y : Byte, exec (.code op) s =
      .next { s with
          r0 := (combAfter (combiner s) 8).r0, r1 := (combAfter (combiner s) 8).r1,
          r2 := (combAfter (combiner s) 8).r2, pos := s.pos + 8#64,
          responses := s.responses ++ [⟨true, [y.setWidth 64]⟩] } ∧
    ∀ j < 8, y.getLsbD (7 - j) = (op.getLsbD (7 - j) ^^ keyBit (combiner s) j)

/-- 46_stream.md R251: SKIP, its encoding, effect and rejection; a count of 0 or less changes nothing. -/
def Obligations.SkipDiscardsKeystreamBytes : Prop :=
  CommandLegality 0x31#8 (· = 0#2) (· = 0#7) 1 ∧ (∀ op, decode 0x00000031#32 [op] = .ok (.skip op)) ∧
  (∀ op s, op.toInt ≤ 0 → exec (.skip op) s = .next { s with responses := s.responses ++ [⟨true, []⟩] }) ∧
  (∀ op s, 0 < op.toInt →
    let c := combAfter (combiner s) (8 * op.toNat)
    exec (.skip op) s = .next { s with
        r0 := c.r0, r1 := c.r1, r2 := c.r2, pos := s.pos + 8#64 * op, responses := s.responses ++ [⟨true, []⟩] })

/-- 46_stream.md R243: from the same combiner state, coding the coded bytes returns the data, for any number of bytes. -/
def Obligations.CodingTwiceReturnsTheData : Prop :=
  ∀ (data : List Byte) s, ∃ (coded : List Byte) (t u : State),
    Runs data.length (withActions s (data.map fun d => transactionOf (.code (d.setWidth 64)))) t ∧
    t.responses = s.responses ++ coded.map (fun d => ⟨true, [d.setWidth 64]⟩) ∧ coded.length = data.length ∧
    Runs coded.length (withActions s (coded.map fun d => transactionOf (.code (d.setWidth 64)))) u ∧
    u.responses = s.responses ++ data.map (fun d => ⟨true, [d.setWidth 64]⟩) ∧ SameBlock t u

/-- 46_stream.md R244: SKIP of k > 0 leaves the state that k CSTEPN 8 leave and that k CODE leave, whatever their data. -/
def Obligations.SkipEqualsDiscardedBytes : Prop :=
  ∀ op s (data : List Word), 0 < op.toInt → data.length = op.toNat → ∃ t u v,
    exec (.skip op) s = .next t ∧
    Runs op.toNat (withActions s (List.replicate op.toNat (transactionOf (.cstepn 8)))) u ∧
    Runs op.toNat (withActions s (data.map fun d => transactionOf (.code d))) v ∧
    SameBlock t u ∧ SameBlock t v

/-- 70_reset_and_hazards.md R350: after reset the keystream is all zeros, CODE, CSTEP, CSTEPN and SKIP are not refused, and
coding returns each data byte unchanged. -/
def Obligations.CodingBeforeSeedingIsInTheClear : Prop :=
  (∀ k, keyBit (combiner State.reset) k = false) ∧
  (∀ i, (∃ op, i = .code op) ∨ i = .cstep ∨ (∃ n, i = .cstepn n) ∨ (∃ op, i = .skip op) →
    ∃ t ws, exec i State.reset = .next t ∧ t.responses = [⟨true, ws⟩]) ∧
  ∀ data : List Byte, ∃ t,
    Runs data.length (withActions State.reset (data.map fun d => transactionOf (.code (d.setWidth 64)))) t ∧
    t.responses = data.map fun d => ⟨true, [d.setWidth 64]⟩

/-- 70_reset_and_hazards.md section 3 (R353): what RRD reads of R0, R1 and R2, loaded back by RLD after any use of the block,
restores the combiner and so the keystream, with POS at 0. -/
def Obligations.SavedRegistersRestoreTheKeystream : Prop :=
  ∀ s v, ∃ a b c d e f t u,
    Runs 3 (withActions s [transactionOf (.rrd .r0), transactionOf (.rrd .r1), transactionOf (.rrd .r2)]) t ∧
    t.responses = s.responses ++ [⟨true, [a, b]⟩, ⟨true, [c, d]⟩, ⟨true, [e, f]⟩] ∧
    Runs 3 (withActions v [transactionOf (.rld .r0 a b), transactionOf (.rld .r1 c d), transactionOf (.rld .r2 e f)]) u ∧
    combiner u = combiner s ∧ (∀ k, keyBit (combiner u) k = keyBit (combiner s) k) ∧ u.pos = 0#64

/-! ### Control and status (48_control.md) -/

/-- 48_control.md R270: NOP, its encoding, effect and rejection. -/
def Obligations.NopDoesNothing : Prop :=
  CommandLegality 0x00#8 (· = 0#2) (· = 0#7) 0 ∧ decode 0x00000000#32 [] = .ok .nop ∧
  ∀ s, exec .nop s = .next { s with responses := s.responses ++ [⟨true, []⟩] }

/-- 48_control.md R271: PRD, its encoding, effect and rejection. -/
def Obligations.PrdReadsPos : Prop :=
  CommandLegality 0x40#8 (· = 0#2) (· = 0#7) 0 ∧ decode 0x00000040#32 [] = .ok .prd ∧
  ∀ s, exec .prd s = .next { s with responses := s.responses ++ [⟨true, [s.pos]⟩] }

/-- 48_control.md R272: SRD, its encoding, effect and rejection; after a rejection it shows ILL and the rejected word. -/
def Obligations.SrdReadsStatus : Prop :=
  CommandLegality 0x41#8 (· = 0#2) (· = 0#7) 0 ∧ decode 0x00000041#32 [] = .ok .srd ∧
  (∀ s, ∃ v : Word, exec .srd s = .next { s with responses := s.responses ++ [⟨true, [v]⟩] } ∧
    v.toNat = 2 ^ 32 * s.errcw.toNat + s.ill.toNat) ∧
  ∀ s cw ops, s.actions = [.transaction cw ops, transactionOf .srd] → ¬ Accepted cw ops →
    ∃ t v, Runs 2 s t ∧ t.responses = s.responses ++ [⟨false, []⟩, ⟨true, [v]⟩] ∧ v.toNat = 2 ^ 32 * cw.toNat + 1

/-- 48_control.md R273: SRST, its encoding, effect and rejection. -/
def Obligations.SrstResetsEverything : Prop :=
  CommandLegality 0x7F#8 (· = 0#2) (· = 0#7) 0 ∧ decode 0x0000007F#32 [] = .ok .srst ∧
  ∀ s, exec .srst s =
    .next {
        r0 := ⟨0#64, 0#64⟩, r1 := ⟨0#64, 0#64⟩, r2 := ⟨0#64, 0#64⟩, b := ⟨0#64, 0#64⟩, pos := 0#64, ill := false,
        errcw := 0#32, actions := s.actions, responses := s.responses ++ [⟨true, []⟩] }
end

