-- ==== Sys2Proof/Laws/Decode.lean ====
section
/-! SUPPORT. What the encoding tables and the decoder do, said once: the fields of a command word, the opcode map, and
when a transaction decodes. -/

namespace Sys2Proof

@[simp] theorem countOk_iff (n : Nat) : countOk n = true ↔ 1 ≤ n ∧ n ≤ 64 := by
  simp [countOk, Config.minCount, Config.maxCount]

/-! ### Fields of an assembled command word -/

@[simp] theorem cwOpc_cmdWord (o : BitVec 8) (r : BitVec 2) (n : BitVec 7) : cwOpc (cmdWord o r n) = o := by
  ext i hi; interval_cases i <;> simp [cwOpc, cmdWord]

@[simp] theorem cwRs_cmdWord (o : BitVec 8) (r : BitVec 2) (n : BitVec 7) : cwRs (cmdWord o r n) = r := by
  ext i hi; interval_cases i <;> simp [cwRs, cmdWord]

@[simp] theorem cwZ1_cmdWord (o : BitVec 8) (r : BitVec 2) (n : BitVec 7) : cwZ1 (cmdWord o r n) = 0#6 := by
  ext i hi; interval_cases i <;> simp [cwZ1, cmdWord]

@[simp] theorem cwN_cmdWord (o : BitVec 8) (r : BitVec 2) (n : BitVec 7) : cwN (cmdWord o r n) = n := by
  ext i hi; interval_cases i <;> simp [cwN, cmdWord]

@[simp] theorem cwZ2_cmdWord (o : BitVec 8) (r : BitVec 2) (n : BitVec 7) : cwZ2 (cmdWord o r n) = 0#9 := by
  ext i hi; interval_cases i <;> simp [cwZ2, cmdWord]

/-- A command word with its reserved bits zero is its three fields and nothing else. -/
theorem cmdWord_fields {cw : CmdWord} (h1 : cwZ1 cw = 0#6) (h2 : cwZ2 cw = 0#9) :
    cmdWord (cwOpc cw) (cwRs cw) (cwN cw) = cw := by
  have z1 : ∀ i < 6, cw.getLsbD (10 + i) = false := fun i hi => by
    have := congrArg (·.getLsbD i) h1
    simpa [cwZ1, hi] using this
  have z2 : ∀ i < 9, cw.getLsbD (23 + i) = false := fun i hi => by
    have := congrArg (·.getLsbD i) h2
    simpa [cwZ2, hi] using this
  apply BitVec.eq_of_getLsbD_eq
  intro i hi
  by_cases a : i < 8
  · simp [cmdWord, cwOpc, cwRs, cwN, hi, a, show i < 16 by omega]
  by_cases b : i < 10
  · simp [cmdWord, cwOpc, cwRs, cwN, hi, a, show i < 16 by omega, show i - 8 < 2 by omega, show 8 + (i - 8) = i by omega]
  by_cases c : i < 16
  · have := z1 (i - 10) (by omega)
    rw [show 10 + (i - 10) = i by omega] at this
    simp [cmdWord, cwOpc, cwRs, cwN, a, c, this, show ¬ (i - 8 < 2) by omega]
  by_cases d : i < 23
  · simp [cmdWord, cwOpc, cwRs, cwN, hi, a, c, show ¬ (i - 8 < 2) by omega, show i - 16 < 7 by omega,
      show 16 + (i - 16) = i by omega]
  · have := z2 (i - 23) (by omega)
    rw [show 23 + (i - 23) = i by omega] at this
    simp [cmdWord, cwOpc, cwRs, cwN, a, c, this, show ¬ (i - 8 < 2) by omega, show ¬ (i - 16 < 7) by omega]

/-! ### The register select and the opcode map -/

@[simp] theorem regSelOf_regSelCode (r : RegSel) : regSelOf (regSelCode r) = r := by cases r <;> rfl

@[simp] theorem regSelCode_regSelOf (v : BitVec 2) : regSelCode (regSelOf v) = v := by
  revert v; decide

/-- Every row is found by its own opcode. -/
@[simp] theorem opcodeOf_opc (o : Opcode) : opcodeOf (opRow o).opc = some o := by cases o <;> rfl

/-- The row an opcode value names has that opcode value. -/
theorem opc_of_opcodeOf {v : BitVec 8} {o : Opcode} (h : opcodeOf v = some o) : (opRow o).opc = v := by
  simpa using List.find?_some h

/-- An opcode value names a row exactly when it is the row's. -/
theorem opcodeOf_eq_some_iff {v : BitVec 8} {o : Opcode} : opcodeOf v = some o ↔ v = (opRow o).opc :=
  ⟨fun h => (opc_of_opcodeOf h).symm, fun h => h ▸ opcodeOf_opc o⟩

/-! ### The checks -/

@[simp] theorem reservedCheck_none_iff (cw : CmdWord) : reservedCheck cw = none ↔ cwZ1 cw = 0#6 ∧ cwZ2 cw = 0#9 := by
  simp [reservedCheck]

@[simp] theorem rsCheck_any (v : BitVec 2) : rsCheck .any v = none := rfl
@[simp] theorem rsCheck_onlyB_none_iff (v : BitVec 2) : rsCheck .onlyB v = none ↔ v = 3#2 := by simp [rsCheck]
@[simp] theorem rsCheck_zero_none_iff (v : BitVec 2) : rsCheck .zero v = none ↔ v = 0#2 := by simp [rsCheck]
@[simp] theorem nCheck_count_none_iff (v : BitVec 7) : nCheck .count v = none ↔ 1 ≤ v.toNat ∧ v.toNat ≤ 64 := by
  simp [nCheck]
@[simp] theorem nCheck_zero_none_iff (v : BitVec 7) : nCheck .zero v = none ↔ v = 0#7 := by simp [nCheck]

@[simp] theorem operandCheck_none_iff (k : Nat) (ops : List Word) : operandCheck k ops = none ↔ ops.length = k := by
  simp [operandCheck]

/-- No cause rejects exactly when every check of 30_encoding.md R120 passes. -/
theorem firstCause_none_iff (o : Opcode) (cw : CmdWord) (ops : List Word) :
    firstCause o cw ops = none ↔
      (cwZ1 cw = 0#6 ∧ cwZ2 cw = 0#9) ∧ rsCheck (opRow o).rs (cwRs cw) = none ∧
        nCheck (opRow o).n (cwN cw) = none ∧ ops.length = (opRow o).operands := by
  simp [firstCause]

/-! ### The decoder -/

/-- A transaction decodes to `i` exactly when its opcode names a row, no check fails, and `i` is what the fields say. -/
theorem decode_eq_ok_iff {cw : CmdWord} {ops : List Word} {i : Instr} :
    decode cw ops = .ok i ↔
      ∃ o, cwOpc cw = (opRow o).opc ∧ firstCause o cw ops = none ∧
        i = instrOf o (regSelOf (cwRs cw)) (cwN cw).toNat ops := by
  unfold decode
  cases h : opcodeOf (cwOpc cw) with
  | none =>
    simp only [reduceCtorEq, false_iff]
    rintro ⟨o, ho, -⟩
    simp [ho] at h
  | some o =>
    have ho := (opc_of_opcodeOf h).symm
    have uniq : ∀ o', cwOpc cw = (opRow o').opc → o' = o := fun o' h' => by
      rw [h', opcodeOf_opc] at h; exact Option.some.inj h
    cases hc : firstCause o cw ops with
    | some c =>
      simp only [hc, reduceCtorEq, false_iff]
      rintro ⟨o', h1, h2, -⟩
      rw [uniq o' h1, hc] at h2; cases h2
    | none =>
      simp only [hc, Except.ok.injEq]
      constructor
      · rintro rfl; exact ⟨o, ho, hc, rfl⟩
      · rintro ⟨o', h1, -, rfl⟩; rw [uniq o' h1]

/-- Every transaction decodes to an instruction or to a rejection, and a rejected one is not accepted. -/
theorem decode_error_iff {cw : CmdWord} {ops : List Word} :
    (∃ c, decode cw ops = .error c) ↔ ¬ Machine.Accepted cw ops := by
  unfold Machine.Accepted
  cases decode cw ops <;> simp

/-- The row of the instruction that `instrOf` builds. -/
@[simp] theorem opcodeOfInstr_instrOf (o : Opcode) (r : RegSel) (n : Nat) (ops : List Word) :
    opcodeOfInstr (instrOf o r n ops) = o := by cases o <;> rfl

/-- Two rows with one opcode value are one row. -/
theorem opc_injective {o o' : Opcode} (h : (opRow o).opc = (opRow o').opc) : o = o' := by
  have := opcodeOf_opc o
  rw [h, opcodeOf_opc] at this
  exact (Option.some.inj this).symm

/-- A transaction is accepted exactly when its opcode names a row and no check of the row fails. -/
theorem accepted_iff {cw : CmdWord} {ops : List Word} :
    Machine.Accepted cw ops ↔ ∃ o, cwOpc cw = (opRow o).opc ∧ firstCause o cw ops = none :=
  ⟨fun ⟨_, hi⟩ => let ⟨o, h1, h2, _⟩ := decode_eq_ok_iff.mp hi; ⟨o, h1, h2⟩,
    fun ⟨_, h1, h2⟩ => ⟨_, decode_eq_ok_iff.mpr ⟨_, h1, h2, rfl⟩⟩⟩

/-- When the opcode names row `o`, only the checks of `o` decide. -/
theorem accepted_of_opc {cw : CmdWord} {ops : List Word} {o : Opcode} (h : cwOpc cw = (opRow o).opc) :
    Machine.Accepted cw ops ↔ firstCause o cw ops = none := by
  rw [accepted_iff]
  refine ⟨fun ⟨o', h1, h2⟩ => ?_, fun h2 => ⟨o, h, h2⟩⟩
  rwa [opc_injective (h.symm.trans h1)]

end Sys2Proof
end

