-- ==== Sys2Proof/Laws/Sequences.lean ====
section
/-! SUPPORT. The Register and combiner loops, said once: each loop's end state is an iterate, its value holds the bits of
the sequence most significant first, and a step of a register moves every bit one place down. -/

namespace Sys2Proof.Machine

/-! ### One step of a register -/

@[simp] theorem zextBit_getLsbD (bit : Bool) (i : Nat) : (zextBit bit).getLsbD i = (decide (i = 0) && bit) := by
  cases bit
  · simp [zextBit]
  · simp [zextBit, BitVec.getLsbD_one]

@[simp] theorem zextBit_getElem (bit : Bool) (i : Nat) (h : i < 64) : (zextBit bit)[i] = (decide (i = 0) && bit) := by
  rw [← BitVec.getLsbD_eq_getElem, zextBit_getLsbD]

/-- Bit i of LO after a step (40_register.md R142). -/
theorem lfsrNext_lo_getLsbD (r : Reg) {i : Nat} (hi : i < 64) :
    (lfsrNext r).lo.getLsbD i = if i = 63 then r.hi.getLsbD 0 else r.lo.getLsbD (i + 1) := by
  by_cases h : i = 63
  · subst h; simp [lfsrNext]
  · simp [lfsrNext, h, show i < 63 by omega, Nat.add_comm]

/-- Bit i of HI after a step (40_register.md R142). -/
theorem lfsrNext_hi_getLsbD (r : Reg) {i : Nat} (hi : i < 64) :
    (lfsrNext r).hi.getLsbD i = if i = 63 then lfsrFb r else r.hi.getLsbD (i + 1) := by
  by_cases h : i = 63
  · subst h; simp [lfsrNext]
  · simp [lfsrNext, h, show i < 63 by omega, Nat.add_comm]

/-- S[i] = LO[i] below 64 and HI[i-64] above (00_scope.md R15). -/
theorem regBits_getLsbD (r : Reg) {i : Nat} (hi : i < 128) :
    (regBits r).getLsbD i = if i < 64 then r.lo.getLsbD i else r.hi.getLsbD (i - 64) := by
  by_cases h : i < 64
  · simp [regBits, h, hi]
  · simp [regBits, h, hi, show i - 64 < 64 by omega, BitVec.getLsbD_of_ge r.lo i (by omega)]

/-- A register is its 128 bits. -/
theorem regBits_injective : Function.Injective regBits := by
  intro r r' h
  have key : ∀ i < 128, (regBits r).getLsbD i = (regBits r').getLsbD i := fun i _ => by rw [h]
  cases r; cases r'
  congr 1 <;> apply BitVec.eq_of_getLsbD_eq <;> intro i hi
  · have := key (i + 64) (by omega)
    rw [regBits_getLsbD _ (by omega), regBits_getLsbD _ (by omega)] at this
    simpa using this
  · have := key i (by omega)
    rw [regBits_getLsbD _ (by omega), regBits_getLsbD _ (by omega)] at this
    simpa [hi] using this

/-- S[i] after a step: the bit above it, and the feedback bit at the top (40_register.md R146). -/
theorem regBits_lfsrNext_getLsbD (r : Reg) {i : Nat} (hi : i < 128) :
    (regBits (lfsrNext r)).getLsbD i = if i = 127 then lfsrFb r else (regBits r).getLsbD (i + 1) := by
  rw [regBits_getLsbD _ hi]
  by_cases a : i < 64
  · rw [if_pos a, lfsrNext_lo_getLsbD _ a, if_neg (show i ≠ 127 by omega), regBits_getLsbD _ (by omega)]
    by_cases b : i = 63
    · subst b; simp
    · simp [b, show i + 1 < 64 by omega]
  · rw [if_neg a, lfsrNext_hi_getLsbD _ (by omega)]
    by_cases b : i = 127
    · subst b; simp
    · rw [if_neg (show i - 64 ≠ 63 by omega), if_neg b, regBits_getLsbD _ (by omega), if_neg (by omega),
        show i - 64 + 1 = i + 1 - 64 by omega]

/-- The feedback bit is S[0] ^ S[1] ^ S[2] ^ S[7] (40_register.md R146). -/
theorem lfsrFb_regBits (r : Reg) :
    lfsrFb r = ((regBits r).getLsbD 0 ^^ (regBits r).getLsbD 1 ^^ (regBits r).getLsbD 2 ^^ (regBits r).getLsbD 7) := by
  rw [regBits_getLsbD _ (by omega), regBits_getLsbD _ (by omega), regBits_getLsbD _ (by omega),
    regBits_getLsbD _ (by omega)]
  rfl

/-- A register step can be undone (40_register.md R148). -/
theorem lfsrNext_injective : Function.Injective lfsrNext := by
  intro r r' h
  have up : ∀ i, 1 ≤ i → i < 128 → (regBits r).getLsbD i = (regBits r').getLsbD i := fun i h1 h2 => by
    have step : ∀ x, (regBits (lfsrNext x)).getLsbD (i - 1) = (regBits x).getLsbD i := fun x => by
      rw [regBits_lfsrNext_getLsbD _ (by omega), if_neg (by omega), show i - 1 + 1 = i by omega]
    rw [← step r, ← step r', h]
  have top : lfsrFb r = lfsrFb r' := by
    have step : ∀ x, (regBits (lfsrNext x)).getLsbD 127 = lfsrFb x := fun x => by
      rw [regBits_lfsrNext_getLsbD _ (by omega), if_pos rfl]
    rw [← step r, ← step r', h]
  apply regBits_injective
  apply BitVec.eq_of_getLsbD_eq
  intro i hi
  rcases Nat.eq_zero_or_pos i with rfl | hpos
  · rw [lfsrFb_regBits, lfsrFb_regBits, up 1 (by omega) (by omega), up 2 (by omega) (by omega),
      up 7 (by omega) (by omega)] at top
    simpa using top
  · exact up i hpos hi

/-- The all-zero register is a fixed point (40_register.md R148). -/
@[simp] theorem lfsrNext_zero : lfsrNext ⟨0#64, 0#64⟩ = ⟨0#64, 0#64⟩ := by decide

@[simp] theorem lfsrFb_zero : lfsrFb ⟨0#64, 0#64⟩ = false := by decide

/-! ### Iterates -/

@[simp] theorem regAfter_zero (r : Reg) : regAfter r 0 = r := rfl
theorem regAfter_succ (r : Reg) (t : Nat) : regAfter r (t + 1) = regAfter (lfsrNext r) t := rfl
theorem regAfter_succ' (r : Reg) (t : Nat) : regAfter r (t + 1) = lfsrNext (regAfter r t) :=
  Function.iterate_succ_apply' _ _ _
theorem regAfter_add (r : Reg) (m n : Nat) : regAfter r (m + n) = regAfter (regAfter r m) n := by
  unfold regAfter; rw [Nat.add_comm, Function.iterate_add_apply]

@[simp] theorem combAfter_zero (c : Combiner) : combAfter c 0 = c := rfl
theorem combAfter_succ (c : Combiner) (t : Nat) : combAfter c (t + 1) = combAfter (combStep c).2 t := rfl
theorem combAfter_succ' (c : Combiner) (t : Nat) : combAfter c (t + 1) = (combStep (combAfter c t)).2 :=
  Function.iterate_succ_apply' _ _ _
theorem combAfter_add (c : Combiner) (m n : Nat) : combAfter c (m + n) = combAfter (combAfter c m) n := by
  unfold combAfter; rw [Nat.add_comm, Function.iterate_add_apply]

theorem outBit_add (r : Reg) (m n : Nat) : outBit r (m + n) = outBit (regAfter r m) n := by
  unfold outBit; rw [regAfter_add]
theorem keyBit_add (c : Combiner) (m n : Nat) : keyBit c (m + n) = keyBit (combAfter c m) n := by
  unfold keyBit; rw [combAfter_add]

/-! ### The bit-assembling loop (40_register.md R145; 44_combiner.md R212) -/

/-- The loop's end state is the n-th iterate. -/
theorem assembleBits_state {σ : Type} (f : σ → Bool × σ) (n : Nat) (v : Word) (c : σ) :
    (assembleBits f n v c).2 = (fun c => (f c).2)^[n] c := by
  induction n generalizing v c with
  | zero => rfl
  | succ n ih => simp only [assembleBits, ih]; rfl

/-- Bit j of the loop's value: below n the (n-j)-th bit produced, above it the bits of the start value. -/
theorem assembleBits_getLsbD {σ : Type} (f : σ → Bool × σ) (n : Nat) (v : Word) (c : σ) {j : Nat} (hj : j < 64) :
    (assembleBits f n v c).1.getLsbD j =
      if j < n then (f ((fun c => (f c).2)^[n - 1 - j] c)).1 else v.getLsbD (j - n) := by
  induction n generalizing v c with
  | zero => simp [assembleBits]
  | succ n ih =>
    simp only [assembleBits, ih]
    by_cases a : j < n
    · rw [if_pos a, if_pos (by omega), show n + 1 - 1 - j = n - 1 - j + 1 by omega]
      rfl
    · rw [if_neg a]
      by_cases b : j = n
      · subst b; simp
      · rw [if_neg (by omega)]
        have : j - n ≠ 0 := by omega
        simp [this, show j - n - 1 = j - (n + 1) by omega, show j - n < 64 by omega,
          BitVec.getLsbD_eq_getElem (show j - (n + 1) < 64 by omega)]

/-- The value of n bits assembled from zero holds them most significant first. -/
theorem assembleBits_holds {σ : Type} (f : σ → Bool × σ) {n : Nat} (hn : n ≤ 64) (c : σ) :
    HoldsMsbFirst (assembleBits f n 0#64 c).1 n fun j => (f ((fun c => (f c).2)^[j] c)).1 := by
  refine ⟨fun j hj => ?_, fun j hj => ?_⟩
  · rw [assembleBits_getLsbD _ _ _ _ (by omega), if_pos (by omega), show n - 1 - (n - 1 - j) = j by omega]
  · by_cases h : j < 64
    · rw [assembleBits_getLsbD _ _ _ _ h, if_neg (by omega)]; simp
    · exact BitVec.getLsbD_of_ge _ _ (by omega)

@[simp] theorem lfsrStepN_state (r : Reg) (n : Nat) : (lfsrStepN r n).2 = regAfter r n :=
  assembleBits_state lfsrStep n 0#64 r

/-- step_n's value holds the output bits most significant first (40_register.md R145). -/
theorem lfsrStepN_holds (r : Reg) {n : Nat} (hn : n ≤ 64) : HoldsMsbFirst (lfsrStepN r n).1 n (outBit r) :=
  assembleBits_holds lfsrStep hn r

@[simp] theorem combStepN_state (c : Combiner) (n : Nat) : (combStepN c n).2 = combAfter c n :=
  assembleBits_state combStep n 0#64 c

/-- cstep_n's value holds the keystream bits most significant first (44_combiner.md R212). -/
theorem combStepN_holds (c : Combiner) {n : Nat} (hn : n ≤ 64) : HoldsMsbFirst (combStepN c n).1 n (keyBit c) :=
  assembleBits_holds combStep hn c

/-- Two values that hold the same bits are equal. -/
theorem HoldsMsbFirst_unique {v w : Word} {n : Nat} {f : Nat → Bool} (hv : HoldsMsbFirst v n f)
    (hw : HoldsMsbFirst w n f) : v = w := by
  apply BitVec.eq_of_getLsbD_eq
  intro i hi
  by_cases h : i < n
  · have a := hv.1 (n - 1 - i) (by omega)
    have b := hw.1 (n - 1 - i) (by omega)
    rw [show n - 1 - (n - 1 - i) = i by omega] at a b
    rw [a, b]
  · rw [hv.2 i (by omega), hw.2 i (by omega)]

/-! ### The combiner, one bit -/

/-- One keystream bit's effect on the three registers (44_combiner.md R211, R213). -/
theorem combStep_state (c : Combiner) :
    (combStep c).2 = ⟨regAfter c.r0 (1 + (lfsrFb c.r2).toNat), regAfter c.r1 (1 + 2 * (lfsrFb c.r2).toNat),
      lfsrNext c.r2⟩ := by
  cases h : lfsrFb c.r2 <;> simp [combStep, lfsrStep, lfsrStepCarry, h, regAfter]

@[simp] theorem combStep_bit (c : Combiner) : (combStep c).1 = (c.r0.lo.getLsbD 0 ^^ c.r1.lo.getLsbD 0) := rfl

/-! ### Skipping (46_stream.md R241) -/

/-- Skipping k bytes is 8k keystream bits. -/
theorem skipBytes_eq (k : Nat) (c : Combiner) : skipBytes k c = combAfter c (8 * k) := by
  induction k generalizing c with
  | zero => rfl
  | succ k ih =>
    rw [skipBytes, ih, combStepN_state, ← combAfter_add, show Config.bitsPerByte + 8 * k = 8 * (k + 1) by
      simp only [Config.bitsPerByte]; omega]

@[simp] theorem codeByte_state (d : Byte) (c : Combiner) : (codeByte d c).2 = combAfter c 8 := combStepN_state c 8

/-- The coded byte: data bit 7-j XOR keystream bit j (46_stream.md R240). -/
theorem codeByte_getLsbD (d : Byte) (c : Combiner) {j : Nat} (hj : j < 8) :
    (codeByte d c).1.getLsbD (7 - j) = (d.getLsbD (7 - j) ^^ keyBit c j) := by
  have := (combStepN_holds c (n := 8) (by omega)).1 j hj
  have h7 : 7 - j < 8 := by omega
  simpa [codeByte, Config.bitsPerByte, h7] using this

/-! ### Key expansion (42_key_schedule.md R183) -/

/-- The six words are the six runs of 64 output bits. -/
theorem keyExpand_words (b : Reg) :
    keyExpand b = ⟨(lfsrStepN b 64).1, (lfsrStepN (regAfter b 64) 64).1, (lfsrStepN (regAfter b 128) 64).1,
      (lfsrStepN (regAfter b 192) 64).1, (lfsrStepN (regAfter b 256) 64).1, (lfsrStepN (regAfter b 320) 64).1⟩ := by
  simp [keyExpand, ← regAfter_add]

/-- A word of the expansion holds the output bits of its run most significant first. -/
theorem lfsrStepN_run_holds (b : Reg) (m : Nat) :
    HoldsMsbFirst (lfsrStepN (regAfter b m) 64).1 64 fun j => outBit b (m + j) := by
  simpa only [outBit_add] using lfsrStepN_holds (regAfter b m) (n := 64) (by omega)

end Sys2Proof.Machine
end

