-- ==== Sys2Proof/Laws/State.lean ====
section
/-! SUPPORT. What each named update of the state does to each field, true by definition: later proofs rewrite with these
and never unfold a record update. -/

namespace Sys2Proof.Machine

/-! ### setCombiner -/

@[simp] theorem setCombiner_r0 (s : State) (c : Combiner) : (setCombiner s c).r0 = c.r0 := rfl
@[simp] theorem setCombiner_r1 (s : State) (c : Combiner) : (setCombiner s c).r1 = c.r1 := rfl
@[simp] theorem setCombiner_r2 (s : State) (c : Combiner) : (setCombiner s c).r2 = c.r2 := rfl
@[simp] theorem setCombiner_b (s : State) (c : Combiner) : (setCombiner s c).b = s.b := rfl
@[simp] theorem setCombiner_pos (s : State) (c : Combiner) : (setCombiner s c).pos = s.pos := rfl
@[simp] theorem setCombiner_ill (s : State) (c : Combiner) : (setCombiner s c).ill = s.ill := rfl
@[simp] theorem setCombiner_errcw (s : State) (c : Combiner) : (setCombiner s c).errcw = s.errcw := rfl
@[simp] theorem setCombiner_actions (s : State) (c : Combiner) : (setCombiner s c).actions = s.actions := rfl
@[simp] theorem setCombiner_responses (s : State) (c : Combiner) : (setCombiner s c).responses = s.responses := rfl

/-! ### clearPos -/

@[simp] theorem clearPos_r0 (s : State) : (clearPos s).r0 = s.r0 := rfl
@[simp] theorem clearPos_r1 (s : State) : (clearPos s).r1 = s.r1 := rfl
@[simp] theorem clearPos_r2 (s : State) : (clearPos s).r2 = s.r2 := rfl
@[simp] theorem clearPos_b (s : State) : (clearPos s).b = s.b := rfl
@[simp] theorem clearPos_pos (s : State) : (clearPos s).pos = 0#64 := rfl
@[simp] theorem clearPos_ill (s : State) : (clearPos s).ill = s.ill := rfl
@[simp] theorem clearPos_errcw (s : State) : (clearPos s).errcw = s.errcw := rfl
@[simp] theorem clearPos_actions (s : State) : (clearPos s).actions = s.actions := rfl
@[simp] theorem clearPos_responses (s : State) : (clearPos s).responses = s.responses := rfl

/-! ### advancePos -/

@[simp] theorem advancePos_r0 (s : State) (n : Nat) : (advancePos s n).r0 = s.r0 := rfl
@[simp] theorem advancePos_r1 (s : State) (n : Nat) : (advancePos s n).r1 = s.r1 := rfl
@[simp] theorem advancePos_r2 (s : State) (n : Nat) : (advancePos s n).r2 = s.r2 := rfl
@[simp] theorem advancePos_b (s : State) (n : Nat) : (advancePos s n).b = s.b := rfl
@[simp] theorem advancePos_pos (s : State) (n : Nat) : (advancePos s n).pos = s.pos + BitVec.ofNat 64 n := rfl
@[simp] theorem advancePos_ill (s : State) (n : Nat) : (advancePos s n).ill = s.ill := rfl
@[simp] theorem advancePos_errcw (s : State) (n : Nat) : (advancePos s n).errcw = s.errcw := rfl
@[simp] theorem advancePos_actions (s : State) (n : Nat) : (advancePos s n).actions = s.actions := rfl
@[simp] theorem advancePos_responses (s : State) (n : Nat) : (advancePos s n).responses = s.responses := rfl

/-! ### respond -/

@[simp] theorem respond_r0 (s : State) (ws : List Word) : (respond s ws).r0 = s.r0 := rfl
@[simp] theorem respond_r1 (s : State) (ws : List Word) : (respond s ws).r1 = s.r1 := rfl
@[simp] theorem respond_r2 (s : State) (ws : List Word) : (respond s ws).r2 = s.r2 := rfl
@[simp] theorem respond_b (s : State) (ws : List Word) : (respond s ws).b = s.b := rfl
@[simp] theorem respond_pos (s : State) (ws : List Word) : (respond s ws).pos = s.pos := rfl
@[simp] theorem respond_ill (s : State) (ws : List Word) : (respond s ws).ill = s.ill := rfl
@[simp] theorem respond_errcw (s : State) (ws : List Word) : (respond s ws).errcw = s.errcw := rfl
@[simp] theorem respond_actions (s : State) (ws : List Word) : (respond s ws).actions = s.actions := rfl
@[simp] theorem respond_responses (s : State) (ws : List Word) : (respond s ws).responses = s.responses ++ [⟨true, ws⟩] := rfl

/-! ### recordRejection -/

@[simp] theorem recordRejection_r0 (cw : CmdWord) (s : State) : (recordRejection cw s).r0 = s.r0 := rfl
@[simp] theorem recordRejection_r1 (cw : CmdWord) (s : State) : (recordRejection cw s).r1 = s.r1 := rfl
@[simp] theorem recordRejection_r2 (cw : CmdWord) (s : State) : (recordRejection cw s).r2 = s.r2 := rfl
@[simp] theorem recordRejection_b (cw : CmdWord) (s : State) : (recordRejection cw s).b = s.b := rfl
@[simp] theorem recordRejection_pos (cw : CmdWord) (s : State) : (recordRejection cw s).pos = s.pos := rfl
@[simp] theorem recordRejection_ill (cw : CmdWord) (s : State) : (recordRejection cw s).ill = true := rfl
@[simp] theorem recordRejection_errcw (cw : CmdWord) (s : State) : (recordRejection cw s).errcw = cw := rfl
@[simp] theorem recordRejection_actions (cw : CmdWord) (s : State) : (recordRejection cw s).actions = s.actions := rfl
@[simp] theorem recordRejection_responses (cw : CmdWord) (s : State) : (recordRejection cw s).responses = s.responses := rfl

/-! ### reject -/

@[simp] theorem reject_r0 (cw : CmdWord) (s : State) : (reject cw s).r0 = s.r0 := rfl
@[simp] theorem reject_r1 (cw : CmdWord) (s : State) : (reject cw s).r1 = s.r1 := rfl
@[simp] theorem reject_r2 (cw : CmdWord) (s : State) : (reject cw s).r2 = s.r2 := rfl
@[simp] theorem reject_b (cw : CmdWord) (s : State) : (reject cw s).b = s.b := rfl
@[simp] theorem reject_pos (cw : CmdWord) (s : State) : (reject cw s).pos = s.pos := rfl
@[simp] theorem reject_ill (cw : CmdWord) (s : State) : (reject cw s).ill = true := rfl
@[simp] theorem reject_errcw (cw : CmdWord) (s : State) : (reject cw s).errcw = cw := rfl
@[simp] theorem reject_actions (cw : CmdWord) (s : State) : (reject cw s).actions = s.actions := rfl
@[simp] theorem reject_responses (cw : CmdWord) (s : State) : (reject cw s).responses = s.responses ++ [⟨false, []⟩] := rfl

/-! ### resetBlock -/

@[simp] theorem resetBlock_r0 (s : State) : (resetBlock s).r0 = ⟨0#64, 0#64⟩ := rfl
@[simp] theorem resetBlock_r1 (s : State) : (resetBlock s).r1 = ⟨0#64, 0#64⟩ := rfl
@[simp] theorem resetBlock_r2 (s : State) : (resetBlock s).r2 = ⟨0#64, 0#64⟩ := rfl
@[simp] theorem resetBlock_b (s : State) : (resetBlock s).b = ⟨0#64, 0#64⟩ := rfl
@[simp] theorem resetBlock_pos (s : State) : (resetBlock s).pos = 0#64 := rfl
@[simp] theorem resetBlock_ill (s : State) : (resetBlock s).ill = false := rfl
@[simp] theorem resetBlock_errcw (s : State) : (resetBlock s).errcw = 0#32 := rfl
@[simp] theorem resetBlock_actions (s : State) : (resetBlock s).actions = s.actions := rfl
@[simp] theorem resetBlock_responses (s : State) : (resetBlock s).responses = s.responses := rfl

/-! ### expandInto -/

@[simp] theorem expandInto_r0 (s : State) (x : Reg) : (expandInto s x).r0 = (seedCombiner (keyExpand x)).r0 := rfl
@[simp] theorem expandInto_r1 (s : State) (x : Reg) : (expandInto s x).r1 = (seedCombiner (keyExpand x)).r1 := rfl
@[simp] theorem expandInto_r2 (s : State) (x : Reg) : (expandInto s x).r2 = (seedCombiner (keyExpand x)).r2 := rfl
@[simp] theorem expandInto_b (s : State) (x : Reg) : (expandInto s x).b = ⟨0#64, 0#64⟩ := rfl
@[simp] theorem expandInto_pos (s : State) (x : Reg) : (expandInto s x).pos = 0#64 := rfl
@[simp] theorem expandInto_ill (s : State) (x : Reg) : (expandInto s x).ill = s.ill := rfl
@[simp] theorem expandInto_errcw (s : State) (x : Reg) : (expandInto s x).errcw = s.errcw := rfl
@[simp] theorem expandInto_actions (s : State) (x : Reg) : (expandInto s x).actions = s.actions := rfl
@[simp] theorem expandInto_responses (s : State) (x : Reg) : (expandInto s x).responses = s.responses := rfl

/-! ### issueNext -/

@[simp] theorem issueNext_r0 (a : HostAction) (s : State) : (issueNext a s).r0 = s.r0 := rfl
@[simp] theorem issueNext_r1 (a : HostAction) (s : State) : (issueNext a s).r1 = s.r1 := rfl
@[simp] theorem issueNext_r2 (a : HostAction) (s : State) : (issueNext a s).r2 = s.r2 := rfl
@[simp] theorem issueNext_b (a : HostAction) (s : State) : (issueNext a s).b = s.b := rfl
@[simp] theorem issueNext_pos (a : HostAction) (s : State) : (issueNext a s).pos = s.pos := rfl
@[simp] theorem issueNext_ill (a : HostAction) (s : State) : (issueNext a s).ill = s.ill := rfl
@[simp] theorem issueNext_errcw (a : HostAction) (s : State) : (issueNext a s).errcw = s.errcw := rfl
@[simp] theorem issueNext_actions (a : HostAction) (s : State) : (issueNext a s).actions = a :: s.actions := rfl
@[simp] theorem issueNext_responses (a : HostAction) (s : State) : (issueNext a s).responses = s.responses := rfl

/-! ### writeReg: one register, everything else as it was -/

@[simp] theorem writeReg_r0_r0 (s : State) (x : Reg) : (writeReg s .r0 x).r0 = x := rfl
@[simp] theorem writeReg_r0_r1 (s : State) (x : Reg) : (writeReg s .r0 x).r1 = s.r1 := rfl
@[simp] theorem writeReg_r0_r2 (s : State) (x : Reg) : (writeReg s .r0 x).r2 = s.r2 := rfl
@[simp] theorem writeReg_r0_b (s : State) (x : Reg) : (writeReg s .r0 x).b = s.b := rfl
@[simp] theorem writeReg_r1_r0 (s : State) (x : Reg) : (writeReg s .r1 x).r0 = s.r0 := rfl
@[simp] theorem writeReg_r1_r1 (s : State) (x : Reg) : (writeReg s .r1 x).r1 = x := rfl
@[simp] theorem writeReg_r1_r2 (s : State) (x : Reg) : (writeReg s .r1 x).r2 = s.r2 := rfl
@[simp] theorem writeReg_r1_b (s : State) (x : Reg) : (writeReg s .r1 x).b = s.b := rfl
@[simp] theorem writeReg_r2_r0 (s : State) (x : Reg) : (writeReg s .r2 x).r0 = s.r0 := rfl
@[simp] theorem writeReg_r2_r1 (s : State) (x : Reg) : (writeReg s .r2 x).r1 = s.r1 := rfl
@[simp] theorem writeReg_r2_r2 (s : State) (x : Reg) : (writeReg s .r2 x).r2 = x := rfl
@[simp] theorem writeReg_r2_b (s : State) (x : Reg) : (writeReg s .r2 x).b = s.b := rfl
@[simp] theorem writeReg_b_r0 (s : State) (x : Reg) : (writeReg s .b x).r0 = s.r0 := rfl
@[simp] theorem writeReg_b_r1 (s : State) (x : Reg) : (writeReg s .b x).r1 = s.r1 := rfl
@[simp] theorem writeReg_b_r2 (s : State) (x : Reg) : (writeReg s .b x).r2 = s.r2 := rfl
@[simp] theorem writeReg_b_b (s : State) (x : Reg) : (writeReg s .b x).b = x := rfl
@[simp] theorem writeReg_pos (s : State) (rs : RegSel) (x : Reg) : (writeReg s rs x).pos = s.pos := by cases rs <;> rfl
@[simp] theorem writeReg_ill (s : State) (rs : RegSel) (x : Reg) : (writeReg s rs x).ill = s.ill := by cases rs <;> rfl
@[simp] theorem writeReg_errcw (s : State) (rs : RegSel) (x : Reg) : (writeReg s rs x).errcw = s.errcw := by cases rs <;> rfl
@[simp] theorem writeReg_actions (s : State) (rs : RegSel) (x : Reg) : (writeReg s rs x).actions = s.actions := by cases rs <;> rfl
@[simp] theorem writeReg_responses (s : State) (rs : RegSel) (x : Reg) : (writeReg s rs x).responses = s.responses := by cases rs <;> rfl

/-- Reading after writing: the register written reads as the value, every other as before. -/
@[simp] theorem readReg_writeReg (s : State) (rs rs' : RegSel) (x : Reg) :
    readReg (writeReg s rs x) rs' = if rs' = rs then x else readReg s rs' := by
  cases rs <;> cases rs' <;> rfl

/-! ### The combiner as one value -/

@[simp] theorem combiner_r0 (s : State) : (combiner s).r0 = s.r0 := rfl
@[simp] theorem combiner_r1 (s : State) : (combiner s).r1 = s.r1 := rfl
@[simp] theorem combiner_r2 (s : State) : (combiner s).r2 = s.r2 := rfl
@[simp] theorem combiner_setCombiner (s : State) (c : Combiner) : combiner (setCombiner s c) = c := rfl

/-! ### The host's next action -/

@[simp] theorem nextAction_nil {s : State} (h : s.actions = []) : nextAction s = none := by simp [nextAction, h]

@[simp] theorem nextAction_cons {s : State} {a : HostAction} {rest : List HostAction} (h : s.actions = a :: rest) :
    nextAction s = some (a, { s with actions := rest }) := by simp [nextAction, h]

@[simp] theorem idle_eq (s : State) : idle s = s := rfl

end Sys2Proof.Machine
end

