-- ==== Sys2Proof/Laws/Exec.lean ====
section
/-! SUPPORT. What each meaning answers, in the named operations and the iterates of Laws/Sequences.lean, and what a step
can do: later proofs cite these and do not unfold the meanings or `step`. -/

namespace Sys2Proof.Machine

/-! ### The meanings -/

theorem exec_nop (s : State) : exec .nop s = .next (respond s []) := rfl

theorem exec_rld (rs : RegSel) (hi lo : Word) (s : State) :
    exec (.rld rs hi lo) s =
      .next (respond (if rs = .b then writeReg s rs ⟨hi, lo⟩ else clearPos (writeReg s rs ⟨hi, lo⟩)) []) := rfl

theorem exec_rrd (rs : RegSel) (s : State) :
    exec (.rrd rs) s = .next (respond s [(readReg s rs).hi, (readReg s rs).lo]) := rfl

theorem exec_rstep (s : State) :
    exec .rstep s = .next (respond (writeReg s .b (lfsrNext s.b)) [zextBit (s.b.lo.getLsbD 0)]) := rfl

theorem exec_rstepc (s : State) :
    exec .rstepc s = .next (respond (writeReg s .b (lfsrNext s.b)) [zextBit (lfsrFb s.b)]) := rfl

theorem exec_rstepn (n : Nat) (s : State) :
    exec (.rstepn n) s = .next (respond (writeReg s .b (regAfter s.b n)) [(lfsrStepN s.b n).1]) := by
  simp only [exec, execRstepn, lfsrStepN_state]

theorem exec_ksdrv (d0 d1 d2 d3 : Word) (s : State) :
    exec (.ksdrv d0 d1 d2 d3) s = .next (respond (expandInto s ⟨d0, d1⟩) []) := rfl

theorem exec_ksexp (s : State) : exec .ksexp s = .next (respond (expandInto s s.b) []) := rfl

theorem exec_cstep (s : State) :
    exec .cstep s = .next (respond (advancePos (setCombiner s (combAfter (combiner s) 1)) 1)
      [zextBit (keyBit (combiner s) 0)]) := rfl

theorem exec_cstepn (n : Nat) (s : State) :
    exec (.cstepn n) s = .next (respond (advancePos (setCombiner s (combAfter (combiner s) n)) n)
      [(combStepN (combiner s) n).1]) := by
  simp only [exec, execCstepn, combStepN_state]

theorem exec_code (op : Word) (s : State) :
    exec (.code op) s = .next (respond (advancePos (setCombiner s (combAfter (combiner s) 8)) 8)
      [zextByte (codeByte (dataByte op) (combiner s)).1]) := by
  simp only [exec, execCode, codeByte_state]

theorem exec_skip_nonpos {op : Word} (h : op.toInt ≤ 0) (s : State) :
    exec (.skip op) s = .next (respond s []) := by
  simp [exec, execSkip, signed64, h]

theorem exec_skip_pos {op : Word} (h : 0 < op.toInt) (s : State) :
    exec (.skip op) s = .next (respond (advancePos (setCombiner s
      (combAfter (combiner s) (8 * op.toInt.toNat))) (8 * op.toInt.toNat)) []) := by
  simp [exec, execSkip, signed64, Int.not_le.mpr h, skipBytes_eq]

theorem exec_prd (s : State) : exec .prd s = .next (respond s [s.pos]) := rfl

theorem exec_srd (s : State) : exec .srd s = .next (respond s [statusWord s.errcw s.ill]) := rfl

theorem exec_srst (s : State) : exec .srst s = .next (respond (resetBlock s) []) := rfl

/-- A skip count is its operand when it is positive, so 8k is the operand shifted, modulo 2^64 (46_stream.md R251). -/
theorem ofNat_toNat_toInt {op : Word} (h : 0 < op.toInt) :
    BitVec.ofNat 64 (8 * op.toInt.toNat) = 8#64 * op := by
  have : op.toInt.toNat = op.toNat := by
    rw [BitVec.toInt_eq_toNat_cond] at h ⊢; split at h <;> omega
  rw [this]
  apply BitVec.eq_of_toNat_eq
  simp [BitVec.toNat_mul]

/-- STATUS as a number: ERRCW in the upper half, ILL in bit 0 (10_state.md R55). -/
theorem statusWord_toNat (e : CmdWord) (ill : Bool) : (statusWord e ill).toNat = 2 ^ 32 * e.toNat + ill.toNat := by
  have := e.isLt
  unfold statusWord
  rw [← BitVec.add_eq_or_of_and_eq_zero]
  · cases ill <;> simp [zextBit, BitVec.toNat_add, Nat.shiftLeft_eq] <;> omega
  · ext i hi
    simp only [BitVec.getElem_and, BitVec.getElem_shiftLeft, zextBit_getElem, BitVec.getElem_zero]
    by_cases h : i < 32 <;> simp [h]
    omega

/-! ### One transaction and one step -/

theorem transact_ok {cw : CmdWord} {ops : List Word} {i : Instr} (h : decode cw ops = .ok i) (s : State) :
    transact cw ops s = exec i s := by simp [transact, h]

theorem transact_error {cw : CmdWord} {ops : List Word} {c : RejectCause} (h : decode cw ops = .error c) (s : State) :
    transact cw ops s = .next (reject cw s) := by simp [transact, h]

theorem step_nil {s : State} (h : s.actions = []) : step s = .next s := by simp [step, h]

theorem step_cons {s : State} {a : HostAction} {rest : List HostAction} (h : s.actions = a :: rest) :
    step s = perform a { s with actions := rest } := by simp [step, nextAction_cons h]

/-- Everything a step can do: wait, reset, run the decoded command, or reject. -/
theorem step_cases {s t : State} (h : step s = .next t) :
    (s.actions = [] ∧ t = s) ∨
    (∃ rest, s.actions = .reset :: rest ∧ t = resetBlock { s with actions := rest }) ∨
    (∃ cw ops rest i, s.actions = .transaction cw ops :: rest ∧ decode cw ops = .ok i ∧
      exec i { s with actions := rest } = .next t) ∨
    (∃ cw ops rest c, s.actions = .transaction cw ops :: rest ∧ decode cw ops = .error c ∧
      t = reject cw { s with actions := rest }) := by
  cases ha : s.actions with
  | nil => rw [step_nil ha] at h; exact .inl ⟨rfl, by simpa using h.symm⟩
  | cons a rest =>
    rw [step_cons ha] at h
    cases a with
    | reset => exact .inr (.inl ⟨rest, rfl, by simpa [perform] using h.symm⟩)
    | transaction cw ops =>
      cases hd : decode cw ops with
      | ok i => exact .inr (.inr (.inl ⟨cw, ops, rest, i, rfl, hd, by simpa [perform, transact_ok hd] using h⟩))
      | error c => exact .inr (.inr (.inr ⟨cw, ops, rest, c, rfl, hd, by
          simpa [perform, transact_error hd] using h.symm⟩))

/-! ### Runs -/

@[simp] theorem run_zero (s : State) : Host.Core.run Sys2Proof.core 0 s = .next s := rfl

theorem run_succ {s t : State} (h : step s = .next t) (n : Nat) :
    Host.Core.run Sys2Proof.core (n + 1) s = Host.Core.run Sys2Proof.core n t := by
  have h' : Host.Core.step Sys2Proof.core s = .next t := h
  simp only [Host.Core.run, h']

/-- A step, then a run, is a run one step longer. -/
theorem Runs_succ {s t u : State} {n : Nat} (h : step s = .next t) (hr : Runs n t u) : Runs (n + 1) s u :=
  (run_succ h n).trans hr

/-- A run of m + n steps that first ends m steps in `t` goes on from `t`. -/
theorem run_add {s t : State} {m : Nat} (h : Runs m s t) (n : Nat) :
    Host.Core.run Sys2Proof.core (m + n) s = Host.Core.run Sys2Proof.core n t := by
  induction m generalizing s with
  | zero => rw [Nat.zero_add]; cases h; rfl
  | succ m ih =>
    cases hs : step s with
    | next u =>
      rw [Nat.succ_add, run_succ hs]
      exact ih (by rw [Runs, run_succ hs] at h; exact h)
    | fault r => exact r.rec
    | refused r =>
      have h' : Host.Core.step Sys2Proof.core s = .refused r := hs
      simp only [Runs, Host.Core.run, h', reduceCtorEq] at h

end Sys2Proof.Machine
end

