-- ==== Sys2Proof/Laws/PerInstr.lean ====
section
/-! SUPPORT. What the encoding of each instruction looks like, one lemma per constructor: the opcode of its row, zero
reserved bits, the RS and N its row asks for, and its number of operand words (30_encoding.md R110, R111, R113 to R116). -/

namespace Sys2Proof.Laws.EncodeShape

/-- The transaction that encodes a well-formed instruction carries the opcode of the instruction's row, and no check of
30_encoding.md R120 fails on it. -/
def Statement (i : Instr) : Prop :=
  wellFormed i = true →
    cwOpc (encode i).1 = (opRow (opcodeOfInstr i)).opc ∧ cwZ1 (encode i).1 = 0#6 ∧ cwZ2 (encode i).1 = 0#9 ∧
      rsCheck (opRow (opcodeOfInstr i)).rs (cwRs (encode i).1) = none ∧
      nCheck (opRow (opcodeOfInstr i)).n (cwN (encode i).1) = none ∧
      (encode i).2.length = (opRow (opcodeOfInstr i)).operands

theorem nop : Statement .nop := by
  intro _; simp [encode, opcodeOfInstr, opRow]

theorem rld (rs : RegSel) (hi lo : Word) : Statement (.rld rs hi lo) := by
  intro _; simp [encode, opcodeOfInstr, opRow]

theorem rrd (rs : RegSel) : Statement (.rrd rs) := by
  intro _; simp [encode, opcodeOfInstr, opRow]

theorem rstep : Statement .rstep := by
  intro _; simp [encode, opcodeOfInstr, opRow, regSelCode]

theorem rstepc : Statement .rstepc := by
  intro _; simp [encode, opcodeOfInstr, opRow, regSelCode]

theorem rstepn (n : Nat) : Statement (.rstepn n) := by
  intro h
  have h' : 1 ≤ n ∧ n ≤ 64 := (countOk_iff n).mp h
  have hn : (BitVec.ofNat 7 n).toNat = n := by rw [BitVec.toNat_ofNat]; omega
  simp [encode, opcodeOfInstr, opRow, regSelCode, hn, h']

theorem ksdrv (d0 d1 d2 d3 : Word) : Statement (.ksdrv d0 d1 d2 d3) := by
  intro _; simp [encode, opcodeOfInstr, opRow]

theorem ksexp : Statement .ksexp := by
  intro _; simp [encode, opcodeOfInstr, opRow]

theorem cstep : Statement .cstep := by
  intro _; simp [encode, opcodeOfInstr, opRow]

theorem cstepn (n : Nat) : Statement (.cstepn n) := by
  intro h
  have h' : 1 ≤ n ∧ n ≤ 64 := (countOk_iff n).mp h
  have hn : (BitVec.ofNat 7 n).toNat = n := by rw [BitVec.toNat_ofNat]; omega
  simp [encode, opcodeOfInstr, opRow, hn, h']

theorem code (op : Word) : Statement (.code op) := by
  intro _; simp [encode, opcodeOfInstr, opRow]

theorem skip (op : Word) : Statement (.skip op) := by
  intro _; simp [encode, opcodeOfInstr, opRow]

theorem prd : Statement .prd := by
  intro _; simp [encode, opcodeOfInstr, opRow]

theorem srd : Statement .srd := by
  intro _; simp [encode, opcodeOfInstr, opRow]

theorem srst : Statement .srst := by
  intro _; simp [encode, opcodeOfInstr, opRow]

end Sys2Proof.Laws.EncodeShape
end

