-- ==== Sys2Proof/Tests/Slice0.lean ====
section
/-! SUPPORT. Tests: ill-formed terms, command words written out bit by bit, one step of each command on a small state
(expected values from spec/95_test_vectors.md and the examples of the rules), and a witness for the hypotheses of each
statement of Certificates/Slice0/Obligations.lean. -/

namespace Sys2Proof.Tests

open Sys2Proof.Machine

/-! ### Well-formedness: "1 <= N <= 64" (30_encoding.md R114) -/

theorem test_wf_rstepn_low : wellFormed (.rstepn 0) = false ∧ wellFormed (.rstepn 1) = true := by decide
theorem test_wf_rstepn_high : wellFormed (.rstepn 64) = true ∧ wellFormed (.rstepn 65) = false := by decide
theorem test_wf_cstepn_low : wellFormed (.cstepn 0) = false ∧ wellFormed (.cstepn 1) = true := by decide
theorem test_wf_cstepn_high : wellFormed (.cstepn 64) = true ∧ wellFormed (.cstepn 65) = false := by decide

/-! ### Decoding: words written out as `zzzzzzzzz nnnnnnn zzzzzz rr oooooooo` (30_encoding.md R101, R110) -/

theorem test_word_nop :
    decode (0b000000000#9 ++ 0b0000000#7 ++ 0b000000#6 ++ 0b00#2 ++ 0b00000000#8) [] = .ok .nop := by decide
theorem test_word_rld :
    decode (0b000000000#9 ++ 0b0000000#7 ++ 0b000000#6 ++ 0b10#2 ++ 0b00000001#8) [7#64, 9#64] = .ok (.rld .r2 7#64 9#64) := by
  decide
theorem test_word_rrd :
    decode (0b000000000#9 ++ 0b0000000#7 ++ 0b000000#6 ++ 0b01#2 ++ 0b00000010#8) [] = .ok (.rrd .r1) := by decide
theorem test_word_rstep :
    decode (0b000000000#9 ++ 0b0000000#7 ++ 0b000000#6 ++ 0b11#2 ++ 0b00000011#8) [] = .ok .rstep := by decide
theorem test_word_rstepc :
    decode (0b000000000#9 ++ 0b0000000#7 ++ 0b000000#6 ++ 0b11#2 ++ 0b00000100#8) [] = .ok .rstepc := by decide
theorem test_word_rstepn :
    decode (0b000000000#9 ++ 0b1000000#7 ++ 0b000000#6 ++ 0b11#2 ++ 0b00000101#8) [] = .ok (.rstepn 64) := by decide
theorem test_word_ksdrv :
    decode (0b000000000#9 ++ 0b0000000#7 ++ 0b000000#6 ++ 0b00#2 ++ 0b00010000#8) [1#64, 2#64, 3#64, 4#64] =
      .ok (.ksdrv 1#64 2#64 3#64 4#64) := by decide
theorem test_word_ksexp :
    decode (0b000000000#9 ++ 0b0000000#7 ++ 0b000000#6 ++ 0b00#2 ++ 0b00010001#8) [] = .ok .ksexp := by decide
theorem test_word_cstep :
    decode (0b000000000#9 ++ 0b0000000#7 ++ 0b000000#6 ++ 0b00#2 ++ 0b00100000#8) [] = .ok .cstep := by decide
theorem test_word_cstepn :
    decode (0b000000000#9 ++ 0b0001000#7 ++ 0b000000#6 ++ 0b00#2 ++ 0b00100001#8) [] = .ok (.cstepn 8) := by decide
theorem test_word_code :
    decode (0b000000000#9 ++ 0b0000000#7 ++ 0b000000#6 ++ 0b00#2 ++ 0b00110000#8) [0x1234#64] = .ok (.code 0x1234#64) := by
  decide
theorem test_word_skip :
    decode (0b000000000#9 ++ 0b0000000#7 ++ 0b000000#6 ++ 0b00#2 ++ 0b00110001#8) [2#64] = .ok (.skip 2#64) := by decide
theorem test_word_prd :
    decode (0b000000000#9 ++ 0b0000000#7 ++ 0b000000#6 ++ 0b00#2 ++ 0b01000000#8) [] = .ok .prd := by decide
theorem test_word_srd :
    decode (0b000000000#9 ++ 0b0000000#7 ++ 0b000000#6 ++ 0b00#2 ++ 0b01000001#8) [] = .ok .srd := by decide
theorem test_word_srst :
    decode (0b000000000#9 ++ 0b0000000#7 ++ 0b000000#6 ++ 0b00#2 ++ 0b01111111#8) [] = .ok .srst := by decide

/-- V-R24 to V-R29: each is rejected for its own cause. -/
theorem test_rejected_register_words :
    decode 0x00000003#32 [] = .error .rsNotB ∧ decode 0x00000204#32 [] = .error .rsNotB ∧
    decode 0x00000305#32 [] = .error .nOutOfRange ∧ decode 0x00410305#32 [] = .error .nOutOfRange ∧
    decode 0x00000001#32 [1#64] = .error .operandCount ∧ decode 0x00000002#32 [1#64] = .error .operandCount := by decide

/-- V-KS7, V-C13, V-S7 and V-K4. -/
theorem test_rejected_other_words :
    decode 0x00000010#32 [1#64, 2#64, 3#64] = .error .operandCount ∧ decode 0x00000111#32 [] = .error .rsNotZero ∧
    decode 0x00010020#32 [] = .error .nNotZero ∧ decode 0x00410021#32 [] = .error .nOutOfRange ∧
    decode 0x00000030#32 [] = .error .operandCount ∧ decode 0x00000031#32 [1#64, 2#64] = .error .operandCount ∧
    decode 0x80000000#32 [] = .error .reservedBit ∧ decode 0x00000006#32 [] = .error .reservedOpcode ∧
    decode 0x0000017F#32 [] = .error .rsNotZero := by decide

/-! ### Numbered words (log entry 4) -/

theorem test_table_word_short : decodeTableWord 32 0x00000101 = some (.rld .r1 0#64 0#64) := by decide
theorem test_table_word_long :
    decodeTableWord 160 (0x00000301 + 5 * 2 ^ 32 + 6 * 2 ^ 96) = some (.rld .b 5#64 6#64) := by decide
theorem test_table_word_reserved : decodeTableWord 32 0x00000006 = none := by decide

/-- The next state of an outcome, if it is one: states can be compared by `decide`. -/
def nextOf : Result → Option State
  | .next t => some t
  | .fault _ => none
  | .refused _ => none

/-- The next step runs the word and leaves no action to come. -/
theorem test_fetch_word : nextOf (step (State.reset.withFetchWord 32 0x00000301)) =
    some { State.reset with b := ⟨0#64, 0#64⟩, responses := [⟨true, []⟩] } := by decide

/-! ### Assembler text (30_encoding.md R125 to R127) -/

theorem test_asm_rld : assembleLine "rld r1, 0, 0xF".toList = some [(0x00000101#32, [0#64, 0xF#64])] := by decide
theorem test_asm_skip : assembleLine "skip -1".toList = some [(0x00000031#32, [0xFFFFFFFFFFFFFFFF#64])] := by decide
theorem test_asm_codebuf :
    assembleLine "codebuf 0x48, 105".toList = some [(0x00000030#32, [0x48#64]), (0x00000030#32, [0x69#64])] := by decide
theorem test_asm_refused : assembleLine "code 256".toList = none ∧ assembleLine "rstep r0".toList = none := by decide

/-! ### One step of each command -/

/-- A state with the given B, right after reset otherwise. -/
def withB (hi lo : Word) : State := { State.reset with b := ⟨hi, lo⟩ }

/-- A state with the given combiner, right after reset otherwise. -/
def withC (r0 r1 r2 : Reg) : State := { State.reset with r0 := r0, r1 := r1, r2 := r2 }

/-- The combiner K0 of V-KS3. -/
def k0 : State :=
  withC ⟨0x109050D030B070F0#64, 0x008040C020A060E0#64⟩ ⟨0x3BD9DA28CB292AD0#64, 0x43A1A250B35152BD#64⟩
    ⟨0x4FE012BFE54ABC10#64, 0x1AB547EAB01FE395#64⟩

/-- `s` after the answer `words`. -/
def answered (s : State) (words : List Word) : State := { s with responses := s.responses ++ [⟨true, words⟩] }

/-- 48_control.md R270: NOP leaves a set ILL and every register. -/
theorem test_nop : nextOf (exec .nop { k0 with ill := true, pos := 5#64 }) = some (answered { k0 with ill := true, pos := 5#64 } []) := by
  decide
/-- V-R22, and R50(d): loading B leaves POS. -/
theorem test_rld_b : nextOf (exec (.rld .b 5#64 6#64) { withB 0#64 1#64 with pos := 3#64 }) =
    some (answered { withB 5#64 6#64 with pos := 3#64 } []) := by decide
/-- R50(c): loading R1 clears POS and leaves R0 and R2. -/
theorem test_rld_r1 : nextOf (exec (.rld .r1 5#64 6#64) { withC ⟨1#64, 2#64⟩ ⟨3#64, 4#64⟩ ⟨5#64, 6#64⟩ with pos := 3#64 }) =
    some (answered (withC ⟨1#64, 2#64⟩ ⟨5#64, 6#64⟩ ⟨5#64, 6#64⟩) []) := by decide
/-- V-R23: HI first. -/
theorem test_rrd : nextOf (exec (.rrd .r0) k0) = some (answered k0 [0x109050D030B070F0#64, 0x008040C020A060E0#64]) := by decide
/-- V-R1, the source's worked example. -/
theorem test_rstep : nextOf (exec .rstep (withB 0#64 1#64)) = some (answered (withB 0x8000000000000000#64 0#64) [1#64]) := by decide
/-- V-R14: feedback 0, carry 1. -/
theorem test_rstep_general : nextOf (exec .rstep (withB 0x0123456789ABCDEF#64 0xFEDCBA9876543210#64)) =
    some (answered (withB 0x0091A2B3C4D5E6F7#64 0xFF6E5D4C3B2A1908#64) [0#64]) := by decide
/-- V-R11: the feedback bit 0 where RSTEP would return 1. -/
theorem test_rstepc : nextOf (exec .rstepc (withB 0#64 0x87#64)) = some (answered (withB 0#64 0x43#64) [0#64]) := by decide
/-- V-R9: bit 7 is a tap. -/
theorem test_rstepc_tap : nextOf (exec .rstepc (withB 0#64 0x80#64)) =
    some (answered (withB 0x8000000000000000#64 0x40#64) [1#64]) := by decide
/-- V-R16: the first bit is the most significant. -/
theorem test_rstepn : nextOf (exec (.rstepn 2) (withB 0#64 1#64)) = some (answered (withB 0x4000000000000000#64 0#64) [2#64]) := by
  decide
/-- V-R20: a whole word. -/
theorem test_rstepn_word : nextOf (exec (.rstepn 64) (withB 0x0123456789ABCDEF#64 0xFEDCBA9876543210#64)) =
    some (answered (withB 0x21F8700760078FF8#64 0x0123456789ABCDEF#64) [0x084C2A6E195D3B7F#64]) := by decide +kernel
/-- V-KS3 and V-KS4: B, POS and the last two words do not matter. -/
theorem test_ksdrv : nextOf (exec (.ksdrv 0x0706050403020100#64 0x0F0E0D0C0B0A0908#64 0#64 0xFF#64)
    { withB 1#64 1#64 with pos := 9#64 }) = some (answered k0 []) := by decide +kernel
/-- V-KS1. -/
theorem test_ksexp : nextOf (exec .ksexp (withB 0#64 1#64)) =
    some (answered (withC ⟨0x8000000000000000#64, 0#64⟩ ⟨0x8000000000000000#64, 0x43#64⟩
      ⟨0x8000000000000000#64, 0x200A#64⟩) []) := by decide +kernel
/-- V-C5: control 1, two steps of R0 and three of R1. -/
theorem test_cstep_extra : nextOf (exec .cstep (withC ⟨0#64, 3#64⟩ ⟨0#64, 0xF#64⟩ ⟨0#64, 1#64⟩)) =
    some (answered { withC ⟨0x8000000000000000#64, 0#64⟩ ⟨0x6000000000000000#64, 1#64⟩ ⟨0x8000000000000000#64, 0#64⟩ with
      pos := 1#64 } [0#64]) := by decide
/-- V-C8: R2's output bit is 1 and its feedback bit 0. -/
theorem test_cstep_plain : nextOf (exec .cstep (withC ⟨0#64, 0#64⟩ ⟨0#64, 0#64⟩ ⟨0#64, 0x87#64⟩)) =
    some (answered { withC ⟨0#64, 0#64⟩ ⟨0#64, 0#64⟩ ⟨0#64, 0x43#64⟩ with pos := 1#64 } [0#64]) := by decide
/-- V-C10: the value, and POS 64. -/
theorem test_cstepn : ∃ t, exec (.cstepn 64) k0 = .next t ∧ t.responses = [⟨true, [0xEB2E9B2A78D0ADFB#64]⟩] ∧
    t.pos = 64#64 := ⟨_, rfl, by decide +kernel⟩
/-- V-S2: bits above 7 are ignored. -/
theorem test_code : ∃ t, exec (.code 0x1234#64) k0 = .next t ∧ t.responses = [⟨true, [0xDF#64]⟩] ∧ t.pos = 8#64 :=
  ⟨_, rfl, by decide +kernel⟩
/-- V-S4: a negative count changes nothing. -/
theorem test_skip_negative : nextOf (exec (.skip 0xFFFFFFFFFFFFFFFB#64) k0) = some (answered k0 []) := by decide
/-- V-C9: two keystream bytes pass, so the next is 9B (V-S3). -/
theorem test_skip : ∃ t, exec (.skip 2#64) k0 = .next t ∧ t.pos = 16#64 ∧ (combStepN (combiner t) 8).1 = 0x9B#64 :=
  ⟨_, rfl, by decide +kernel⟩
/-- 48_control.md R271. -/
theorem test_prd : nextOf (exec .prd { k0 with pos := 8#64 }) = some (answered { k0 with pos := 8#64 } [8#64]) := by decide
/-- V-K2: the status after the rejected word 0x00000006. -/
theorem test_srd : nextOf (exec .srd { k0 with ill := true, errcw := 6#32 }) =
    some (answered { k0 with ill := true, errcw := 6#32 } [0x0000000600000001#64]) := by decide
/-- V-K3. -/
theorem test_srst : nextOf (exec .srst { k0 with b := ⟨1#64, 2#64⟩, pos := 5#64, ill := true, errcw := 6#32 }) =
    some (answered State.reset []) := by decide

/-! ### Rejection, reset and waiting -/

/-- V-K2, V-K4: a rejected SRST resets nothing. -/
theorem test_reject : nextOf (step { k0 with pos := 5#64, actions := [.transaction 0x0000017F#32 [], .reset] }) =
    some { k0 with pos := 5#64, ill := true, errcw := 0x0000017F#32, actions := [.reset], responses := [⟨false, []⟩] } := by
  decide
/-- 70_reset_and_hazards.md R341: no response, and the host's next action stays to come. -/
theorem test_reset : nextOf (step { k0 with pos := 5#64, ill := true, errcw := 6#32, actions := [.reset, .reset] }) =
    some { State.reset with actions := [.reset] } := by decide
theorem test_waits : nextOf (step k0) = some k0 := by decide

/-! ### Witnesses: states and operands that meet the hypotheses of each statement, at the ends of their ranges -/

theorem witness_DecodeOfEncodeIsTheInstruction : wellFormed (.rstepn 1) = true ∧ wellFormed (.cstepn 64) = true ∧
    wellFormed (.rld .b 0#64 0xFFFFFFFFFFFFFFFF#64) = true := by decide
theorem witness_EncodeOfDecodeIsTheTransaction : decode 0x00400305#32 [] = .ok (.rstepn 64) := by decide
theorem witness_CommandWordFields : Accepted 0x00400305#32 [] := ⟨.rstepn 64, by decide⟩
theorem witness_LegalityAndDispatch_legal : Legal 0x00010021#32 [] ∧ Legal 0x00400305#32 [] ∧
    { k0 with actions := [.transaction 0x00010021#32 []] }.actions = .transaction 0x00010021#32 [] :: [] :=
  ⟨by simp [Legal, ReservedZero, CountField], by simp [Legal, ReservedZero, CountField], rfl⟩
theorem witness_LegalityAndDispatch_illegal : ¬ Legal 0x00000021#32 [] ∧ ¬ Legal 0x00410305#32 [] := by
  constructor <;> simp [Legal, ReservedZero, CountField]
theorem witness_ReservedOpcodesAreRejected : ∀ v ∈ [0x06#8, 0x0F#8, 0x12#8, 0x1F#8, 0x22#8, 0x2F#8, 0x32#8, 0x3F#8,
    0x42#8, 0x7E#8, 0x80#8, 0xFF#8], opcodeOf v = none ∧ (0x00000000#32 ||| v.setWidth 32).extractLsb' 0 8 = v := by decide
theorem witness_ReservedOpcodesAreRejected_others : ∀ v ∈ [0x05#8, 0x10#8, 0x11#8, 0x20#8, 0x21#8, 0x30#8, 0x31#8, 0x40#8,
    0x41#8, 0x7F#8], (opcodeOf v).isSome = true := by decide
theorem witness_OpcodeTableRowsSelectTheCommand : decode 0x00400021#32 [] = .ok (.cstepn 64) ∧
    0x00400021#32 &&& (tableRow .cstepn).1 = (tableRow .cstepn).2 ∧ CountField 0x00400021#32 := by
  refine ⟨by decide, by decide, by simp [CountField]⟩
theorem witness_DecoderIsTotalAndUnambiguous : 0x00010305#32 &&& (tableRow .rstepn).1 = (tableRow .rstepn).2 := by decide
theorem witness_RejectionCauses : ¬ Accepted 0x00000006#32 [] ∧ CauseHolds .reservedOpcode 0x00000006#32 [] :=
  ⟨fun ⟨_, h⟩ => by simp [show decode 0x00000006#32 [] = .error .reservedOpcode by decide] at h, by simp [CauseHolds]⟩
theorem witness_AssemblerSyntax : (1 ≤ 1 ∧ 1 ≤ 64) ∧ (1 ≤ 64 ∧ 64 ≤ 64) ∧ ((0 : Int) < 1 ∨ (64 : Int) < 0) ∧
    ((65 : Int) < 1 ∨ (64 : Int) < 65) ∧ ((-1 : Int) < 0 ∨ (255 : Int) < -1) ∧ ((256 : Int) < 0 ∨ (255 : Int) < 256) ∧
    RegSel.r2 ≠ .b := by decide
theorem witness_PseudoInstructions : (List.replicate 32 (0xFF#8 : Byte)).length = 32 ∧ ([0x00#8] : List Byte) ≠ [] := by decide
theorem witness_DigestPacking : (List.replicate 32 (0xFF#8 : Byte)).length = 32 ∧ 0 < 4 ∧ 3 < 4 := by decide
theorem witness_StepRunsTheDecodedInstruction :
    { k0 with actions := [.transaction 0x00000030#32 [0x48#64], .reset] }.actions =
      .transaction 0x00000030#32 [0x48#64] :: [.reset] ∧ decode 0x00000030#32 [0x48#64] = .ok (.code 0x48#64) := by decide
theorem witness_RejectionChangesOnlyStatus :
    { k0 with actions := [.transaction 0x00000006#32 [1#64]] }.actions = .transaction 0x00000006#32 [1#64] :: [] ∧
      decode 0x00000006#32 [1#64] = .error .reservedOpcode := by decide
theorem witness_ResetInput : ∃ t, { k0 with actions := [.reset] }.actions = [.reset] ∧
    step { k0 with actions := [.reset] } = .next t := ⟨_, rfl, rfl⟩
theorem witness_WaitingBlockHoldsItsState : k0.actions = [] := by decide
theorem witness_StepKeepsStatusInvariant : ∃ s t, StatusInv s ∧ s.ill = true ∧ step s = .next t ∧ t ≠ s :=
  ⟨{ k0 with ill := true, errcw := 6#32, responses := [⟨false, []⟩], actions := [transactionOf .srd] }, _,
    ⟨by simp, by simp, by simp⟩, rfl, rfl, by decide⟩
theorem witness_StatusRegister : ¬ Accepted 0x00410021#32 [] ∧ Instr.srd ≠ .srst ∧
    { k0 with actions := [.reset] }.actions = .reset :: [] :=
  ⟨fun ⟨_, h⟩ => by simp [show decode 0x00410021#32 [] = .error .nOutOfRange by decide] at h, by decide, rfl⟩
theorem witness_IllIsSticky : ∃ s : State, s.ill = true ∧ (∀ rest, s.actions ≠ .reset :: rest) ∧
    (∀ cw ops rest, s.actions = .transaction cw ops :: rest → decode cw ops ≠ .ok .srst) ∧ s.actions ≠ [] :=
  ⟨{ k0 with ill := true, actions := [transactionOf .srd] }, rfl, by simp [transactionOf],
    by rintro cw ops rest h; simp only [transactionOf, List.cons.injEq, HostAction.transaction.injEq] at h
       obtain ⟨⟨rfl, rfl⟩, -⟩ := h; decide, by simp⟩
theorem witness_IllIsSticky_overwritten : ¬ Accepted 0x00000006#32 [] ∧ ¬ Accepted 0x00000003#32 [] ∧
    { k0 with actions := [.transaction 0x00000006#32 [], .transaction 0x00000003#32 []] }.actions =
      [.transaction 0x00000006#32 [], .transaction 0x00000003#32 []] :=
  ⟨fun ⟨_, h⟩ => by simp [show decode 0x00000006#32 [] = .error .reservedOpcode by decide] at h,
    fun ⟨_, h⟩ => by simp [show decode 0x00000003#32 [] = .error .rsNotB by decide] at h, rfl⟩
theorem witness_RegisterAccess : writesReg .rstep .r0 = false ∧ readsReg .rstep .r0 = false ∧
    readsReg (.ksdrv 0#64 0#64 0#64 0#64) .b = false ∧ writesReg (.rrd .b) .b = false := by decide
theorem witness_PosRule : ¬ Accepted 0x00000400#32 [] ∧
    { k0 with actions := [.transaction 0x00000400#32 []] }.actions = .transaction 0x00000400#32 [] :: [] ∧
    { k0 with actions := [.reset] }.actions = .reset :: [] :=
  ⟨fun ⟨_, h⟩ => by simp [show decode 0x00000400#32 [] = .error .reservedBit by decide] at h, rfl, rfl⟩
theorem witness_OnlyPrdReadsPos : Instr.code 0#64 ≠ .prd := by decide
theorem witness_ReadCommandsChangeNoState : Instr.rrd .b = .nop ∨ (∃ q, Instr.rrd .b = .rrd q) ∨ Instr.rrd .b = .prd ∨
    Instr.rrd .b = .srd := .inr (.inl ⟨.b, rfl⟩)
theorem witness_RegisterStepFunctions : (1 ≤ 1 ∧ 1 ≤ 64 ∧ 0 < 1) ∧ (1 ≤ 64 ∧ 64 ≤ 64 ∧ 63 < 64) := by decide
theorem witness_RegisterShiftsByOne : 63 < 64 ∧ 62 < 63 := by decide
theorem witness_RegisterOutputSequence : 127 < 128 ∧ 0 < 128 := by decide
theorem witness_RegisterFixedPointAndBijection : lfsrNext ⟨0#64, 0#64⟩ = ⟨0#64, 0#64⟩ ∧
    (⟨0#64, 1#64⟩ : Reg) ≠ ⟨0#64, 0#64⟩ := by decide

/-- The transaction decodes to a command. -/
def accepts (cw : CmdWord) (ops : List Word) : Bool :=
  match decode cw ops with
  | .ok _ => true
  | .error _ => false

/-- The hypotheses of the clause `CommandLegality` of the fifteen command statements: for each opcode a word that meets
them. -/
theorem witness_CommandLegality_accepted :
    [0x00000000#32, 0x00000302#32, 0x00000303#32, 0x00000304#32, 0x00010305#32, 0x00400305#32, 0x00000011#32].all
      (accepts · []) = true ∧
    [0x00000020#32, 0x00010021#32, 0x00400021#32, 0x00000040#32, 0x00000041#32, 0x0000007F#32].all (accepts · []) = true ∧
    accepts 0x00000001#32 [1#64, 2#64] = true ∧ accepts 0x00000010#32 [1#64, 2#64, 3#64, 4#64] = true ∧
    accepts 0x00000030#32 [1#64] = true ∧ accepts 0x00000031#32 [1#64] = true :=
  ⟨rfl, rfl, rfl, rfl, rfl, rfl⟩

/-- And for each opcode a word that breaks one of them. -/
theorem witness_CommandLegality_rejected :
    [0x80000000#32, 0x00010302#32, 0x00000003#32, 0x00000204#32, 0x00000305#32, 0x00410305#32, 0x00000111#32].any
      (accepts · []) = false ∧
    [0x00010020#32, 0x00000021#32, 0x00410021#32, 0x00000140#32, 0x00000441#32, 0x0000017F#32, 0x00000001#32,
      0x00000010#32, 0x00000030#32, 0x00000031#32].any (accepts · []) = false := ⟨rfl, rfl⟩

theorem witness_RstepnReturnsTheBitsMsbFirst : (1 ≤ 1 ∧ 1 ≤ 64) ∧ (1 ≤ 64 ∧ 64 ≤ 64) := by decide
theorem witness_KsexpExpandsB : (withB 0#64 1#64).b = ⟨0#64, 1#64⟩ := by decide
theorem witness_ZeroSeedGivesTheZeroCombiner : { k0 with pos := 8#64 }.b = ⟨0#64, 0#64⟩ := by decide
theorem witness_SeedIsTheFirstSixteenDigestBytes :
    (List.replicate 32 (0x01#8 : Byte)).length = 32 ∧
    (List.replicate 16 (0x01#8 : Byte) ++ List.replicate 16 0x02#8).length = 32 ∧
    (List.replicate 16 (0x01#8 : Byte) ++ List.replicate 16 0x02#8).take 16 = (List.replicate 32 (0x01#8 : Byte)).take 16 := by
  decide +kernel
theorem witness_CstepnProducesTheBitsMsbFirst : (1 ≤ 1 ∧ 1 ≤ 64) ∧ (1 ≤ 64 ∧ 64 ≤ 64) ∧ (1 ≤ 1 ∧ 1 ≤ 63 ∧ 1 + 63 ≤ 64) := by
  decide
theorem witness_ZeroCombiner : State.reset.r0 = ⟨0#64, 0#64⟩ ∧ State.reset.r1 = ⟨0#64, 0#64⟩ ∧
    State.reset.r2 = ⟨0#64, 0#64⟩ := by decide
theorem witness_SteppingKeepsRegistersNonzero : readReg (withB 0#64 1#64) .b ≠ ⟨0#64, 0#64⟩ ∧
    readReg k0 .r2 ≠ ⟨0#64, 0#64⟩ := by decide
theorem witness_SkipDiscardsKeystreamBytes : (0#64 : Word).toInt ≤ 0 ∧ (0x8000000000000000#64 : Word).toInt ≤ 0 ∧
    0 < (1#64 : Word).toInt ∧ 0 < (0x7FFFFFFFFFFFFFFF#64 : Word).toInt := by decide
theorem witness_SkipEqualsDiscardedBytes : 0 < (2#64 : Word).toInt ∧ [0x48#64, 0x69#64].length = (2#64 : Word).toNat := by
  decide
theorem witness_CodingBeforeSeedingIsInTheClear : ∃ op, Instr.code 0x5A#64 = .code op := ⟨_, rfl⟩
theorem witness_SrdReadsStatus : ¬ Accepted 0x00000006#32 [] ∧
    { k0 with actions := [.transaction 0x00000006#32 [], transactionOf .srd] }.actions =
      [.transaction 0x00000006#32 [], transactionOf .srd] :=
  ⟨fun ⟨_, h⟩ => by simp [show decode 0x00000006#32 [] = .error .reservedOpcode by decide] at h, rfl⟩

end Sys2Proof.Tests
end

section
/-! The status register, POS and the reset values (10_state.md R50, R51, R55, R62): what STATUS looks like bit by bit, what
a rejection and the reset input do in one step, and what every command does to STATUS and to POS. -/

namespace Sys2Proof.Machine

/-! ### The bits of STATUS (10_state.md R55) -/

/-- ILL lies in bit 0, zeros in bits 31:1 and ERRCW from bit 32 up. -/
theorem statusWord_getLsbD (e : CmdWord) (ill : Bool) {j : Nat} (hj : j < 64) :
    (statusWord e ill).getLsbD j = if j < 32 then decide (j = 0) && ill else e.getLsbD (j - 32) := by
  by_cases h : j < 32
  · simp [statusWord, h]
  · simp [statusWord, h, hj, show j ≠ 0 by omega]

/-- The upper half of STATUS is ERRCW. -/
theorem statusWord_errcw (e : CmdWord) (ill : Bool) : (statusWord e ill).extractLsb' 32 32 = e := by
  apply BitVec.eq_of_getLsbD_eq
  intro j hj
  rw [BitVec.getLsbD_extractLsb', statusWord_getLsbD e ill (by omega)]
  simp [hj]

/-! ### The steps that are no command: rejection and the reset input -/

theorem step_reset {s : State} {rest : List HostAction} (h : s.actions = .reset :: rest) :
    step s = .next (resetBlock { s with actions := rest }) := step_cons h

/-- A transaction that is not accepted is rejected (60_exceptions.md R301). -/
theorem rejects_of_not_accepted {cw : CmdWord} {ops : List Word} (h : ¬ Accepted cw ops) : Rejects cw ops := by
  intro s rest hs
  obtain ⟨c, hc⟩ := decode_error_iff.mpr h
  exact (step_cons hs).trans (transact_error hc _)

/-! ### What every command does to STATUS and to POS -/

/-- No command but SRST changes STATUS (10_state.md R55). -/
theorem exec_keeps_status {i : Instr} (s : State) (hi : i ≠ .srst) :
    ∃ t, exec i s = .next t ∧ t.ill = s.ill ∧ t.errcw = s.errcw := by
  cases i with
  | srst => exact absurd rfl hi
  | rld rs hi lo => cases rs <;> exact ⟨_, rfl, rfl, rfl⟩
  | skip op =>
    rcases lt_or_ge 0 op.toInt with h | h
    · exact ⟨_, exec_skip_pos h s, rfl, rfl⟩
    · exact ⟨_, exec_skip_nonpos h s, rfl, rfl⟩
  | _ => exact ⟨_, rfl, rfl, rfl⟩ -- no operation these arms compose writes `ill` or `errcw`

/-- For every command but PRD, another POS beforehand changes POS afterwards as R50 says, and nothing else
(10_state.md R50, R51). -/
theorem exec_setPos {i : Instr} (s : State) (hi : i ≠ .prd) :
    ∃ t, exec i s = .next t ∧ ∀ p, exec i { s with pos := p } = .next { t with pos := posAfter i p } := by
  cases i with
  | prd => exact absurd rfl hi
  | rld rs hi lo => cases rs <;> exact ⟨_, rfl, fun _ => rfl⟩
  | skip op =>
    rcases lt_or_ge 0 op.toInt with h | h
    · refine ⟨_, exec_skip_pos h s, fun p => (exec_skip_pos h _).trans ?_⟩
      rw [posAfter, if_pos h, ← ofNat_toNat_toInt h]
      rfl
    · refine ⟨_, exec_skip_nonpos h s, fun p => (exec_skip_nonpos h _).trans ?_⟩
      rw [posAfter, if_neg (Int.not_lt.mpr h)]
      rfl
  | _ => exact ⟨_, rfl, fun _ => rfl⟩ -- these arms read `pos` at most to advance it

/-- POS after each command (10_state.md R50): for all but PRD it is `exec_setPos` at the POS the state has. -/
theorem exec_pos (i : Instr) (s : State) : ∃ t, exec i s = .next t ∧ t.pos = posAfter i s.pos := by
  by_cases hi : i = .prd
  · subst hi
    exact ⟨_, exec_prd s, rfl⟩
  · obtain ⟨_, -, h⟩ := exec_setPos s hi
    exact ⟨_, h s.pos, rfl⟩

/-! ### The statements -/

/-- Settles O16: every field of the reset state, and of the state SRST leaves, has its value of R62. -/
theorem resetValues : Obligations.ResetValues :=
  ⟨⟨rfl, rfl, rfl, rfl, rfl, rfl, rfl⟩, fun s => ⟨_, exec_srst s, rfl, rfl, rfl, rfl, rfl, rfl, rfl⟩⟩

/-- Settles O23: SRD's word by `statusWord_getLsbD`, rejection by `rejects_of_not_accepted`, the commands by
`exec_keeps_status`, and SRST and reset by `resetBlock`. -/
theorem statusRegister : Obligations.StatusRegister := by
  refine ⟨fun s => ⟨statusWord s.errcw s.ill, exec_srd s, ?_, fun j h1 h32 => ?_, statusWord_errcw _ _⟩,
    fun _ _ => rejects_of_not_accepted, fun _ s hi => exec_keeps_status s hi,
    fun s => ⟨_, exec_srst s, rfl, rfl⟩, fun _ _ h => ⟨_, step_reset h, rfl, rfl⟩⟩
  · rw [statusWord_getLsbD _ _ (by decide)]
    simp
  · rw [statusWord_getLsbD _ _ (by omega)]
    simp [h32, show j ≠ 0 by omega]

/-- Settles O26: the commands by `exec_pos`; a rejection keeps POS and the reset input clears it. -/
theorem posRule : Obligations.PosRule :=
  ⟨exec_pos, fun _ _ s rest h hs => ⟨_, rejects_of_not_accepted h s rest hs, rfl⟩,
    fun _ _ h => ⟨_, step_reset h, rfl⟩⟩

/-- Settles O27: the other POS afterwards is what R50 makes of the other POS beforehand. -/
theorem onlyPrdReadsPos : Obligations.OnlyPrdReadsPos := fun i s p hi =>
  let ⟨t, ht, h⟩ := exec_setPos s hi
  ⟨t, posAfter i p, ht, h p⟩

end Sys2Proof.Machine
end

section
/-! The digest packing and the order of the transactions (20_memory.md R73, R81): a byte put below a little-endian value is
one OR, and no action looks at the actions that come after it. -/

namespace Sys2Proof.Machine

/-! ### Little-endian words (20_memory.md R73) -/

/-- A first byte lies below the others, which move one byte up. -/
theorem ofNat_littleEndian_cons (d : Byte) (ds : List Byte) :
    (BitVec.ofNat 64 (littleEndian (d :: ds)) : Word) = d.setWidth 64 ||| BitVec.ofNat 64 (littleEndian ds) <<< 8 := by
  have disjoint : d.setWidth 64 &&& BitVec.ofNat 64 (littleEndian ds) <<< 8 = 0#64 := by
    ext i hi
    by_cases h : i < 8
    · simp [h]
    · simp [BitVec.getLsbD_of_ge d i (by omega)]
  rw [← BitVec.add_eq_or_of_and_eq_zero _ _ disjoint, littleEndian]
  apply BitVec.eq_of_toNat_eq
  simp [BitVec.toNat_add, Nat.shiftLeft_eq, Nat.mul_comm]

/-- Eight bytes in a row, as a little-endian word. -/
theorem ofNat_littleEndian_eight (b : Nat → Byte) :
    (BitVec.ofNat 64 (littleEndian ((List.range 8).map b)) : Word) =
      (b 0).setWidth 64 ||| (b 1).setWidth 64 <<< 8 ||| (b 2).setWidth 64 <<< 16 ||| (b 3).setWidth 64 <<< 24 |||
        (b 4).setWidth 64 <<< 32 ||| (b 5).setWidth 64 <<< 40 ||| (b 6).setWidth 64 <<< 48 |||
        (b 7).setWidth 64 <<< 56 := by
  have range8 : List.range 8 = [0, 1, 2, 3, 4, 5, 6, 7] := rfl
  have nil : (BitVec.ofNat 64 (littleEndian []) : Word) = 0#64 := rfl
  simp only [range8, List.map, ofNat_littleEndian_cons, nil]
  simp [BitVec.shiftLeft_or_distrib, ← BitVec.shiftLeft_add, BitVec.or_assoc]

/-- The n elements of a list from index k on. -/
theorem take_drop_eq_map_getD {α : Type} (l : List α) (x : α) {k n : Nat} (h : k + n ≤ l.length) :
    (l.drop k).take n = (List.range n).map fun i => l.getD (k + i) x := by
  apply List.ext_getElem
  · rw [List.length_take, List.length_drop, List.length_map, List.length_range]
    omega
  · intro i _ hi
    have : k + i < l.length := by simp at hi; omega
    simp [this]

/-! ### What comes after an action does not matter to it (20_memory.md R81) -/

/-- No command reads or writes the actions to come. -/
theorem exec_withActions (i : Instr) (s : State) :
    ∃ t, exec i s = .next t ∧ ∀ acts, exec i (withActions s acts) = .next (withActions t acts) := by
  cases i with
  | rld rs hi lo => cases rs <;> exact ⟨_, rfl, fun _ => rfl⟩
  | skip op =>
    rcases lt_or_ge 0 op.toInt with h | h
    · exact ⟨_, exec_skip_pos h s, fun _ => exec_skip_pos h _⟩
    · exact ⟨_, exec_skip_nonpos h s, fun _ => exec_skip_nonpos h _⟩
  | _ => exact ⟨_, rfl, fun _ => rfl⟩ -- these arms keep `actions` as they find it

/-- No host action does: a transaction by `exec_withActions` or as a rejection, the reset input by `resetBlock`. -/
theorem perform_withActions (a : HostAction) (s : State) :
    ∃ t, ∀ acts, perform a (withActions s acts) = .next (withActions t acts) := by
  cases a with
  | reset => exact ⟨resetBlock s, fun _ => rfl⟩
  | transaction cw ops =>
    cases hd : decode cw ops with
    | ok i =>
      obtain ⟨t, -, ht⟩ := exec_withActions i s
      exact ⟨t, fun acts => (transact_ok hd _).trans (ht acts)⟩
    | error c => exact ⟨reject cw s, fun acts => transact_error hd _⟩

/-- A run through the actions `xs` ends in one state `t`, whatever actions `ys` are still to come. -/
theorem Runs_append (xs : List HostAction) (s : State) :
    ∃ t, ∀ ys, Runs xs.length (withActions s (xs ++ ys)) (withActions t ys) := by
  induction xs generalizing s with
  | nil => exact ⟨s, fun ys => run_zero _⟩
  | cons a xs ih =>
    obtain ⟨u, hu⟩ := perform_withActions a s
    obtain ⟨t, ht⟩ := ih u
    exact ⟨t, fun ys => Runs_succ ((step_cons rfl).trans (hu (xs ++ ys))) (ht ys)⟩

/-! ### The statements -/

/-- Settles O12: the eight bytes from 8j on are in the digest, and as a little-endian word they are the OR of R73. -/
theorem digestPacking : Obligations.DigestPacking := by
  intro d hd j hj
  rw [digestWord, take_drop_eq_map_getD d 0#8 (by omega)]
  exact ofNat_littleEndian_eight _

/-- Settles O20: `Runs_append` for the first part, with nothing and with the second part to come, then for the second
part; `run_add` joins the two. -/
theorem runIsLeftToRightComposition : Obligations.RunIsLeftToRightComposition := by
  intro xs ys s
  obtain ⟨t, ht⟩ := Runs_append xs s
  obtain ⟨u, hu⟩ := Runs_append ys t
  have runXs : Runs xs.length (withActions s xs) (withActions t []) := by simpa using ht []
  have runYs : Runs ys.length (withActions t ys) (withActions u []) := by simpa using hu []
  exact ⟨t, withActions u [], runXs, ht ys, runYs, (run_add (ht ys) ys.length).trans runYs⟩

end Sys2Proof.Machine
end

section
/-! The command encoding (30_encoding.md R101, R110 to R127): the fields of a command word, the legality check against
the rows of the opcode map, the reserved opcodes, and the pseudo-instructions. -/

namespace Sys2Proof.Machine

/-! ### The fields of a command word (30_encoding.md R101) -/

/-- The three fields of an assembled word lie side by side, so the word is their sum. -/
theorem cmdWord_toNat (opc : BitVec 8) (rs : BitVec 2) (n : BitVec 7) :
    (cmdWord opc rs n).toNat = opc.toNat + 2 ^ 8 * rs.toNat + 2 ^ 16 * n.toNat := by
  have rsBelowN : n.setWidth 32 <<< 16 &&& rs.setWidth 32 <<< 8 = 0#32 := by
    ext i hi
    by_cases h : i < 16
    · simp [h]
    · simp [BitVec.getLsbD_of_ge rs (i - 8) (by omega)]
  have opcBelowBoth : (n.setWidth 32 <<< 16 ||| rs.setWidth 32 <<< 8) &&& opc.setWidth 32 = 0#32 := by
    ext i hi
    by_cases h : i < 8
    · simp [h, show i < 16 by omega]
    · simp [BitVec.getLsbD_of_ge opc i (by omega)]
  rw [cmdWord, ← BitVec.add_eq_or_of_and_eq_zero _ _ opcBelowBoth, ← BitVec.add_eq_or_of_and_eq_zero _ _ rsBelowN]
  simp only [BitVec.toNat_add, BitVec.toNat_shiftLeft, BitVec.toNat_setWidth, Nat.shiftLeft_eq]
  omega

/-- The reserved bits of an accepted word are 0 (30_encoding.md R115). -/
theorem reserved_zero_of_accepted {cw : CmdWord} {ops : List Word} (h : Accepted cw ops) :
    cwZ1 cw = 0#6 ∧ cwZ2 cw = 0#9 :=
  let ⟨o, _, hc⟩ := accepted_iff.mp h
  ((firstCause_none_iff o cw ops).mp hc).1

/-! ### Legality (30_encoding.md R111, R113 to R116, R120) -/

/-- On a word with the opcode of row `o`, the conditions of the rules are the checks of the row. -/
theorem legal_iff_firstCause_none {cw : CmdWord} {o : Opcode} (h : cwOpc cw = (opRow o).opc) (ops : List Word) :
    Legal cw ops ↔ firstCause o cw ops = none := by
  rw [firstCause_none_iff]
  unfold cwOpc at h
  cases o <;> simp [Legal, ReservedZero, CountField, h, opRow, cwZ1, cwZ2, cwRs, cwN]

/-- The conditions of the rules name an opcode of the map. -/
theorem exists_row_of_legal {cw : CmdWord} {ops : List Word} (h : Legal cw ops) : ∃ o, cwOpc cw = (opRow o).opc := by
  obtain ⟨-, h⟩ := h
  have inMap : cwOpc cw ∈ allOpcodes.map fun o => (opRow o).opc := by
    simp only [allOpcodes, List.map, opRow, List.mem_cons, cwOpc] at h ⊢
    tauto
  obtain ⟨o, -, ho⟩ := List.mem_map.mp inMap
  exact ⟨o, ho.symm⟩

/-- The decoder accepts exactly the transactions that meet the conditions of the rules. -/
theorem accepted_iff_legal {cw : CmdWord} {ops : List Word} : Accepted cw ops ↔ Legal cw ops := by
  refine ⟨fun h => ?_, fun h => ?_⟩
  · obtain ⟨o, ho, hc⟩ := accepted_iff.mp h
    exact (legal_iff_firstCause_none ho ops).mpr hc
  · obtain ⟨o, ho⟩ := exists_row_of_legal h
    exact (accepted_of_opc ho).mpr ((legal_iff_firstCause_none ho ops).mp h)

/-- The command a transaction decodes to has the opcode of its command word. -/
theorem opc_of_decode {cw : CmdWord} {ops : List Word} {i : Instr} (h : decode cw ops = .ok i) :
    (opRow (opcodeOfInstr i)).opc = cwOpc cw := by
  obtain ⟨o, ho, -, rfl⟩ := decode_eq_ok_iff.mp h
  rw [opcodeOfInstr_instrOf, ho]

/-- The decoder builds only well-formed instructions: a count it reads has passed the check of R114. -/
theorem wellFormed_of_decode {cw : CmdWord} {ops : List Word} {i : Instr} (h : decode cw ops = .ok i) :
    wellFormed i = true := by
  obtain ⟨o, -, hc, rfl⟩ := decode_eq_ok_iff.mp h
  obtain ⟨-, -, hn, -⟩ := (firstCause_none_iff o cw ops).mp hc
  cases o with
  | rstepn => exact (countOk_iff _).mpr ((nCheck_count_none_iff _).mp hn)
  | cstepn => exact (countOk_iff _).mpr ((nCheck_count_none_iff _).mp hn)
  | _ => rfl -- `wellFormed` asks nothing of the other commands

/-! ### The rows of the opcode map (30_encoding.md R110, R117, R121) -/

theorem exists_rsCheck_none (r : RsRule) : ∃ v, rsCheck r v = none := by
  cases r with
  | any => exact ⟨0#2, rfl⟩
  | onlyB => exact ⟨3#2, rfl⟩
  | zero => exact ⟨0#2, rfl⟩

theorem exists_nCheck_none (r : NRule) : ∃ v, nCheck r v = none := by
  cases r with
  | count => exact ⟨1#7, rfl⟩
  | zero => exact ⟨0#7, rfl⟩

/-- Every row accepts some transaction: one assembled from its opcode, an RS and an N it allows, and zero operands. -/
theorem exists_accepted (o : Opcode) : ∃ cw ops, cwOpc cw = (opRow o).opc ∧ Accepted cw ops := by
  obtain ⟨rs, hrs⟩ := exists_rsCheck_none (opRow o).rs
  obtain ⟨n, hn⟩ := exists_nCheck_none (opRow o).n
  have hopc := cwOpc_cmdWord (opRow o).opc rs n
  refine ⟨_, List.replicate (opRow o).operands 0#64, hopc, (accepted_of_opc hopc).mpr ?_⟩
  simp [firstCause_none_iff, hrs, hn]

/-- Each of the fifteen values is the opcode of a row. -/
theorem exists_row_of_toNat {v : BitVec 8}
    (h : v.toNat ∈ [0x00, 0x01, 0x02, 0x03, 0x04, 0x05, 0x10, 0x11, 0x20, 0x21, 0x30, 0x31, 0x40, 0x41, 0x7F]) :
    ∃ o, v = (opRow o).opc := by
  have inMap : v.toNat ∈ allOpcodes.map fun o => (opRow o).opc.toNat := h
  obtain ⟨o, -, ho⟩ := List.mem_map.mp inMap
  exact ⟨o, (BitVec.eq_of_toNat_eq ho).symm⟩

/-- A word that a row of spec/opcode_table.json matches has the row's opcode: every mask covers bits 7:0. -/
theorem cwOpc_of_tableRow {cw : CmdWord} {o : Opcode} (h : cw &&& (tableRow o).1 = (tableRow o).2) :
    cwOpc cw = (opRow o).opc := by
  have mask : cwOpc (tableRow o).1 = BitVec.allOnes 8 := by cases o <;> rfl
  have value : cwOpc (tableRow o).2 = (opRow o).opc := by cases o <;> rfl
  calc cwOpc cw = cwOpc cw &&& cwOpc (tableRow o).1 := by rw [mask, BitVec.and_allOnes]
    _ = cwOpc (cw &&& (tableRow o).1) := BitVec.extractLsb'_and.symm
    _ = (opRow o).opc := by rw [h, value]

/-! ### Assembler operands (30_encoding.md R125, R126) -/

/-- A byte's value is accepted as that byte. -/
@[simp] theorem asmByte_toNat (d : Byte) : asmByte (.num d.toNat) = some d := by
  have : (d.toNat : Int) ≤ 255 := by omega
  simp [asmByte, this]

/-- A word's value is accepted as that word. -/
@[simp] theorem asmWord_toNat (w : Word) : asmWord (.num w.toNat) = some w := by
  have : (w.toNat : Int) ≤ 0xFFFFFFFFFFFFFFFF := by omega
  simp [asmWord, this]

@[simp] theorem asmBytes_toNat (ds : List Byte) : asmBytes (ds.map fun d => .num d.toNat) = some ds := by
  induction ds with
  | nil => rfl
  | cons d ds ih => simp only [List.map_cons, asmBytes, asmByte_toNat, ih]

/-- `codebuf` of the values of one or more bytes is one `code` per byte. -/
theorem asmExpand_codebuf {bs : List Byte} (h : bs ≠ []) :
    asmExpand .codebuf (bs.map fun b => .num b.toNat) = some (bs.map fun b => .code (zextByte b)) := by
  obtain ⟨b, bs, rfl⟩ := List.exists_cons_of_ne_nil h
  exact congrArg (Option.map _) (asmBytes_toNat (b :: bs))

/-- `ksdrv.b` of the values of 32 bytes is `ksdrv` of the words packed from them (20_memory.md R73). -/
theorem asmExpand_ksdrvB {ds : List Byte} (h : ds.length = 32) :
    asmExpand .ksdrvB (ds.map fun d => .num d.toNat) =
      some [.ksdrv (digestWord ds 0) (digestWord ds 1) (digestWord ds 2) (digestWord ds 3)] := by
  simp [asmExpand, h]

theorem asmExpand_ksdrv (d0 d1 d2 d3 : Word) :
    asmExpand .ksdrv [.num d0.toNat, .num d1.toNat, .num d2.toNat, .num d3.toNat] = some [.ksdrv d0 d1 d2 d3] := by
  simp [asmExpand]

/-! ### The statements -/

/-- Settles O3: the fields are cut out of the word, and an assembled word is their sum. -/
theorem commandWordFields : Obligations.CommandWordFields := by
  refine ⟨fun cw => ⟨fun j hj => ?_, fun j hj => ?_, fun j hj => ?_, fun j hj => ?_, fun j hj => ?_⟩,
    cmdWord_toNat, fun _ _ => reserved_zero_of_accepted⟩
  · simp [cwOpc, hj]
  · simp [cwRs, hj]
  · simp [cwZ1, hj]
  · simp [cwN, hj]
  · simp [cwZ2, hj]

/-- Settles O4: by `accepted_iff_legal` a legal transaction decodes, and any other is not accepted. -/
theorem legalityAndDispatch : Obligations.LegalityAndDispatch := by
  refine fun cw ops => ⟨fun h => ?_, fun h => rejects_of_not_accepted (mt accepted_iff_legal.mp h)⟩
  obtain ⟨i, hi⟩ := accepted_iff_legal.mpr h
  exact ⟨i, hi, opc_of_decode hi, fun s rest hs => (step_cons hs).trans (transact_ok hi _)⟩

/-- Settles O5: no row has an opcode in the ranges, and a value outside them is a row's, which accepts a transaction. -/
theorem reservedOpcodesAreRejected : Obligations.ReservedOpcodesAreRejected := by
  intro v
  refine ⟨fun reserved cw ops hv => rejects_of_not_accepted fun h => ?_, fun free => ?_⟩
  · obtain ⟨o, ho, -⟩ := accepted_iff.mp h
    obtain rfl : (opRow o).opc = v := ho.symm.trans hv
    cases o <;> simp [opRow] at reserved
  · obtain ⟨o, rfl⟩ : ∃ o, v = (opRow o).opc := exists_row_of_toNat (by simp only [List.mem_cons]; omega)
    exact exists_accepted o

/-- Settles O7: `decode` is a function whose results are well formed or rejections, and a matching row is found by the
opcode alone. -/
theorem decoderIsTotalAndUnambiguous : Obligations.DecoderIsTotalAndUnambiguous := by
  refine ⟨fun cw ops => ?_, fun cw o o' h h' =>
    opc_injective ((cwOpc_of_tableRow h).symm.trans (cwOpc_of_tableRow h'))⟩
  cases hd : decode cw ops with
  | ok i => exact .inl ⟨i, ⟨rfl, wellFormed_of_decode hd⟩, fun j hj => (Except.ok.inj hj.1).symm⟩
  | error c => exact .inr ⟨⟨c, rfl⟩, rejects_of_not_accepted (decode_error_iff.mp ⟨c, hd⟩)⟩

/-- Settles O11: the two lists of byte values by `asmExpand_ksdrvB` and `asmExpand_codebuf`; the other three expand to
the same instructions by definition. -/
theorem pseudoInstructions : Obligations.PseudoInstructions := by
  refine ⟨rfl, fun ds h => ?_, fun bs h => ?_, fun k => rfl, fun r => rfl⟩
  · rw [assemble, assemble, asmExpand_ksdrvB h, asmExpand_ksdrv]
  · rw [assemble, asmExpand_codebuf h, Option.map_some, List.map_map]
    rfl

/-- Settles O8: each line and each word of R127, evaluated. -/
theorem encodingExamples : Obligations.EncodingExamples := by
  unfold Obligations.EncodingExamples
  decide

end Sys2Proof.Machine
end

section
/-! The Register (40_register.md): its output sequence, the shift view, the fixed point and the bijection, and the five
Register commands. Every bit of a register is an output bit still to come, so the facts about the state and about the
feedback bit are facts about the output sequence. -/

namespace Sys2Proof.Machine

/-! ### The bits of a register are the output bits to come (40_register.md R147) -/

/-- Bit i of the state after t steps comes out i steps later. -/
theorem regBits_regAfter_getLsbD (r : Reg) (t : Nat) {i : Nat} (hi : i < 128) :
    (regBits (regAfter r t)).getLsbD i = outBit r (t + i) := by
  induction i generalizing t with
  | zero => rw [regBits_getLsbD _ hi, if_pos (by decide)]; rfl
  | succ i ih =>
    have down := regBits_lfsrNext_getLsbD (regAfter r t) (show i < 128 by omega)
    rw [if_neg (by omega), ← regAfter_succ', ih (t + 1) (by omega)] at down
    rw [← down, Nat.add_right_comm, Nat.add_assoc]

/-- The first 128 output bits are the bits of the register. -/
theorem outBit_eq_regBits (r : Reg) {i : Nat} (hi : i < 128) : outBit r i = (regBits r).getLsbD i := by
  simpa using (regBits_regAfter_getLsbD r 0 hi).symm

/-- The feedback bit enters at bit 127, so it comes out 128 steps later. -/
theorem lfsrFb_regAfter (r : Reg) (t : Nat) : lfsrFb (regAfter r t) = outBit r (t + 128) := by
  have top := regBits_lfsrNext_getLsbD (regAfter r t) (show 127 < 128 by decide)
  rw [if_pos rfl, ← regAfter_succ', regBits_regAfter_getLsbD _ _ (by decide), Nat.add_assoc] at top
  exact top.symm

/-- s_(t+128) = s_t ^ s_(t+1) ^ s_(t+2) ^ s_(t+7). -/
theorem outBit_add_128 (r : Reg) (t : Nat) :
    outBit r (t + 128) = (outBit r t ^^ outBit r (t + 1) ^^ outBit r (t + 2) ^^ outBit r (t + 7)) := by
  rw [← lfsrFb_regAfter, lfsrFb_regBits, regBits_regAfter_getLsbD _ _ (by decide),
    regBits_regAfter_getLsbD _ _ (by decide), regBits_regAfter_getLsbD _ _ (by decide),
    regBits_regAfter_getLsbD _ _ (by decide)]
  rfl

/-! ### One step as a shift (40_register.md R146) -/

/-- S' = (S >> 1) | (fb << 127). -/
theorem regBits_lfsrNext (r : Reg) :
    regBits (lfsrNext r) = (regBits r >>> 1) ||| ((BitVec.ofBool (lfsrFb r)).setWidth 128 <<< 127) := by
  apply BitVec.eq_of_getLsbD_eq
  intro i hi
  rw [regBits_lfsrNext_getLsbD r hi]
  by_cases h : i = 127
  · subst h; simp
  · simp [h, show i < 127 by omega, Nat.add_comm]

/-! ### The fixed point and the bijection (40_register.md R148) -/

theorem regAfter_of_fixed {r : Reg} (h : lfsrNext r = r) (t : Nat) : regAfter r t = r :=
  Function.iterate_fixed h t

@[simp] theorem regAfter_zeroReg (t : Nat) : regAfter ⟨0#64, 0#64⟩ t = ⟨0#64, 0#64⟩ :=
  regAfter_of_fixed lfsrNext_zero t

/-- A fixed register outputs one bit for ever, and the recurrence makes that bit an XOR of four equal bits. -/
theorem outBit_of_fixed {r : Reg} (h : lfsrNext r = r) (t : Nat) : outBit r t = false := by
  have const : ∀ u, outBit r u = outBit r 0 := fun u => by
    rw [outBit, outBit, regAfter_of_fixed h, regAfter_of_fixed h]
  have recurrence := outBit_add_128 r 0
  simp only [const, Bool.xor_self, Bool.false_xor] at recurrence
  rw [const t]
  simpa using recurrence

theorem eq_zero_of_fixed {r : Reg} (h : lfsrNext r = r) : r = ⟨0#64, 0#64⟩ := by
  apply regBits_injective
  apply BitVec.eq_of_getLsbD_eq
  intro i hi
  rw [← outBit_eq_regBits _ hi, ← outBit_eq_regBits _ hi, outBit_of_fixed h, outBit_of_fixed lfsrNext_zero]

/-- An injective map of a finite set to itself is onto it. -/
theorem lfsrNext_bijective : Function.Bijective lfsrNext := by
  have : Finite Reg := Finite.of_injective regBits regBits_injective
  exact Finite.injective_iff_bijective.mp lfsrNext_injective

/-- A nonzero register stays nonzero, because only the zero register steps to the zero register. -/
theorem regAfter_ne_zero {r : Reg} (h : r ≠ ⟨0#64, 0#64⟩) (t : Nat) : regAfter r t ≠ ⟨0#64, 0#64⟩ := by
  rw [← regAfter_zeroReg t]
  exact (lfsrNext_injective.iterate t).ne h

/-! ### Assembled values -/

/-- A value that holds n bits is below 2^n. -/
theorem HoldsMsbFirst.toNat_lt {v : Word} {n : Nat} {f : Nat → Bool} (h : HoldsMsbFirst v n f) : v.toNat < 2 ^ n :=
  Nat.lt_pow_two_of_testBit _ h.2

theorem zextBit_eq_ite (bit : Bool) : zextBit bit = if bit then 1#64 else 0#64 := by cases bit <;> rfl

/-! ### The "Encoding" and "Rejected when" lines of a command -/

/-- A command is legal as its row of the opcode map says: the row's checks are the conditions `rsOk` and `nOk`. -/
theorem commandLegality_of_row (o : Opcode) {rsOk : BitVec 2 → Prop} {nOk : BitVec 7 → Prop}
    (hrs : ∀ v, rsCheck (opRow o).rs v = none ↔ rsOk v) (hn : ∀ v, nCheck (opRow o).n v = none ↔ nOk v) :
    CommandLegality (opRow o).opc rsOk nOk (opRow o).operands := by
  intro cw ops hopc
  have accepted : Accepted cw ops ↔ ReservedZero cw ∧ rsOk (cw.extractLsb' 8 2) ∧ nOk (cw.extractLsb' 16 7) ∧
      ops.length = (opRow o).operands := by
    rw [accepted_of_opc hopc, firstCause_none_iff, hrs, hn]; rfl
  exact ⟨accepted.mpr, fun h => rejects_of_not_accepted (mt accepted.mp h)⟩

/-- A word assembled from a row's opcode and fields that pass the row's checks decodes to the row's command. -/
theorem decode_cmdWord {o : Opcode} {rs : BitVec 2} {n : BitVec 7} {ops : List Word}
    (hrs : rsCheck (opRow o).rs rs = none) (hn : nCheck (opRow o).n n = none) (hops : ops.length = (opRow o).operands) :
    decode (cmdWord (opRow o).opc rs n) ops = .ok (instrOf o (regSelOf rs) n.toNat ops) :=
  decode_eq_ok_iff.mpr ⟨o, by simp, by simp [firstCause_none_iff, hrs, hn, hops], by simp⟩

/-- A word with N = 0 is its opcode and RS. -/
theorem cmdWord_zero_count (opc : BitVec 8) (rs : BitVec 2) :
    cmdWord opc rs 0#7 = opc.setWidth 32 ||| rs.setWidth 32 <<< 8 := by
  simp [cmdWord, BitVec.or_comm]

/-- A word whose N is a count of at most 64 is the word with N = 0 and the count at bit 16. -/
theorem cmdWord_count (opc : BitVec 8) (rs : BitVec 2) {n : Nat} (hn : n ≤ 64) :
    cmdWord opc rs (BitVec.ofNat 7 n) = cmdWord opc rs 0#7 ||| BitVec.ofNat 32 n <<< 16 := by
  have widen : (BitVec.ofNat 7 n).setWidth 32 = BitVec.ofNat 32 n := by
    apply BitVec.eq_of_toNat_eq
    simp only [BitVec.toNat_setWidth, BitVec.toNat_ofNat]
    omega
  rw [cmdWord, widen, BitVec.or_assoc, BitVec.or_comm, cmdWord]
  simp

/-! ### The statements about the Register -/

/-- Settles O29: `step` and `step_carry` by definition, `step_n` by its loop's end state and value. -/
theorem registerStepFunctions : Obligations.RegisterStepFunctions := by
  refine ⟨fun _ => rfl, fun _ => rfl, fun r n _ hn => ?_⟩
  have value := lfsrStepN_holds r hn
  exact ⟨lfsrStepN_state r n, value.toNat_lt, value.1⟩

/-- Settles O30: by the shift, bit by bit. -/
theorem registerShiftsByOne : Obligations.RegisterShiftsByOne := by
  refine fun r => ⟨lfsrFb_regBits r, regBits_lfsrNext r, fun i hi => ?_, fun i hi => ?_, ?_⟩
  · rw [← (regBits_lfsrNext_getLsbD r (show i < 128 by omega)).trans (if_neg (by omega)),
      regBits_getLsbD _ (by omega), if_pos hi]
  · rw [lfsrNext_hi_getLsbD r (by omega), if_neg (by omega), regBits_getLsbD r (by omega), if_neg (by omega)]
    rfl
  · rw [lfsrNext_hi_getLsbD r (by decide), if_pos rfl]

/-- Settles O31: by the output sequence; the two words are its first and second run of 64 bits. -/
theorem registerOutputSequence : Obligations.RegisterOutputSequence := by
  refine fun r => ⟨fun t => outBit_eq_regBits r, outBit_add_128 r, fun t i => regBits_regAfter_getLsbD r t,
    lfsrFb_regAfter r, fun j hj => ?_, fun j hj => ?_⟩
  · rw [(lfsrStepN_holds r (le_refl 64)).1 j hj, outBit_eq_regBits r (by omega), regBits_getLsbD r (by omega),
      if_pos hj]
  · have run : _ = outBit r (64 + j) := (lfsrStepN_run_holds r 64).1 j hj
    rw [lfsrStepN_state, run, outBit_eq_regBits r (by omega), regBits_getLsbD r (by omega), if_neg (by omega),
      Nat.add_sub_cancel_left]

/-- Settles O32: the inverse reads the bits of the step back, S[0] from the feedback bit. -/
theorem registerFixedPointAndBijection : Obligations.RegisterFixedPointAndBijection := by
  refine ⟨fun t => ⟨regAfter_zeroReg t, outBit_of_fixed lfsrNext_zero t⟩, fun _ => eq_zero_of_fixed,
    lfsrNext_bijective, fun r => ⟨fun i hi => ?_, ?_⟩, fun _ t h => regAfter_ne_zero h t⟩
  · rw [regBits_lfsrNext_getLsbD r (by omega), if_neg (by omega)]
  · rw [regBits_lfsrNext_getLsbD r (by decide), if_pos rfl, lfsrFb_regBits]
    simp [Bool.xor_left_comm]

/-! ### The statements about the Register commands -/

/-- Settles O37: the value holds the output bits of B, and B becomes its N-th iterate. -/
theorem rstepnReturnsTheBitsMsbFirst : Obligations.RstepnReturnsTheBitsMsbFirst := by
  refine ⟨commandLegality_of_row .rstepn rsCheck_onlyB_none_iff nCheck_count_none_iff,
    fun n h1 hn => ⟨?_, fun s => ?_⟩⟩
  · have count : (BitVec.ofNat 7 n).toNat = n := by rw [BitVec.toNat_ofNat]; omega
    have legal : nCheck .count (BitVec.ofNat 7 n) = none := (nCheck_count_none_iff _).mpr (by omega)
    have decoded := decode_cmdWord (o := .rstepn) (rs := 3#2) (ops := []) rfl legal rfl
    rwa [cmdWord_count _ _ hn, count] at decoded
  · exact ⟨_, exec_rstepn n s, lfsrStepN_holds s.b hn⟩

/-- Settles O33: one case per register, POS being cleared in all but the last. -/
theorem rldLoadsTheSelectedRegister : Obligations.RldLoadsTheSelectedRegister := by
  refine ⟨commandLegality_of_row .rld (fun _ => iff_of_true rfl trivial) nCheck_zero_none_iff, fun rs hi lo => ?_,
    fun hi lo s => ⟨exec_rld .r0 hi lo s, exec_rld .r1 hi lo s, exec_rld .r2 hi lo s, exec_rld .b hi lo s⟩⟩
  have decoded := decode_cmdWord (o := .rld) (rs := regSelCode rs) (n := 0#7) (ops := [hi, lo]) rfl rfl rfl
  rwa [cmdWord_zero_count, regSelOf_regSelCode] at decoded

/-- Settles O34: one case per register. -/
theorem rrdReadsTheSelectedRegister : Obligations.RrdReadsTheSelectedRegister := by
  refine ⟨commandLegality_of_row .rrd (fun _ => iff_of_true rfl trivial) nCheck_zero_none_iff, fun rs => ?_,
    fun s => ⟨exec_rrd .r0 s, exec_rrd .r1 s, exec_rrd .r2 s, exec_rrd .b s⟩⟩
  have decoded := decode_cmdWord (o := .rrd) (rs := regSelCode rs) (n := 0#7) (ops := []) rfl rfl rfl
  rwa [cmdWord_zero_count, regSelOf_regSelCode] at decoded

/-- Settles O35: B becomes the shifted register of `regBits_lfsrNext`. -/
theorem rstepReturnsTheShiftedOutBit : Obligations.RstepReturnsTheShiftedOutBit := by
  refine ⟨commandLegality_of_row .rstep rsCheck_onlyB_none_iff nCheck_zero_none_iff,
    decode_cmdWord (o := .rstep) (rs := 3#2) (n := 0#7) rfl rfl rfl,
    fun s => ⟨lfsrNext s.b, ?_, regBits_lfsrNext s.b⟩⟩
  rw [exec_rstep, zextBit_eq_ite]
  rfl

/-- Settles O36: B becomes what RSTEP leaves, and the answer is the bit that enters at the top. -/
theorem rstepcReturnsTheFeedbackBit : Obligations.RstepcReturnsTheFeedbackBit := by
  refine ⟨commandLegality_of_row .rstepc rsCheck_onlyB_none_iff nCheck_zero_none_iff,
    decode_cmdWord (o := .rstepc) (rs := 3#2) (n := 0#7) rfl rfl rfl,
    fun s => ⟨lfsrNext s.b, ?_, regBits_lfsrNext s.b, _, exec_rstep s, rfl⟩⟩
  rw [exec_rstepc, zextBit_eq_ite]
  rfl

end Sys2Proof.Machine
end

section
/-! The key schedule (42_key_schedule.md): what the six words of an expansion hold, what they are for the zero register, which
digest bytes a digest word reads, and the two commands KSDRV and KSEXP. -/

namespace Sys2Proof.Machine

/-! ### The six words of an expansion (42_key_schedule.md R183) -/

/-- Word k holds the output bits from 64k on, first bit most significant. -/
theorem keyExpand_getLsbD (b : Reg) {j : Nat} (hj : j < 64) :
    (keyExpand b).w0.getLsbD (63 - j) = outBit b j ∧ (keyExpand b).w1.getLsbD (63 - j) = outBit b (64 + j) ∧
    (keyExpand b).w2.getLsbD (63 - j) = outBit b (128 + j) ∧ (keyExpand b).w3.getLsbD (63 - j) = outBit b (192 + j) ∧
    (keyExpand b).w4.getLsbD (63 - j) = outBit b (256 + j) ∧ (keyExpand b).w5.getLsbD (63 - j) = outBit b (320 + j) := by
  have run := fun m => (lfsrStepN_run_holds b m).1 j hj
  rw [keyExpand_words]
  exact ⟨(lfsrStepN_holds b (le_refl 64)).1 j hj, run 64, run 128, run 192, run 256, run 320⟩

/-- After the 128 seed bits the output is the feedback (42_key_schedule.md R186). -/
theorem outBit_128_add (r : Reg) (t : Nat) : outBit r (128 + t) = lfsrFb (regAfter r t) := by
  rw [Nat.add_comm, lfsrFb_regAfter]

/-- The zero register gives only zero bits. -/
theorem lfsrStepN_zeroReg {n : Nat} (hn : n ≤ 64) : (lfsrStepN ⟨0#64, 0#64⟩ n).1 = 0#64 := by
  have zeros : HoldsMsbFirst 0#64 n (outBit ⟨0#64, 0#64⟩) :=
    ⟨fun j _ => by rw [outBit_of_fixed lfsrNext_zero, BitVec.getLsbD_zero], fun _ _ => BitVec.getLsbD_zero⟩
  exact HoldsMsbFirst_unique (lfsrStepN_holds _ hn) zeros

/-- The zero register expands to six zero words (42_key_schedule.md R187). -/
theorem keyExpand_zeroReg : keyExpand ⟨0#64, 0#64⟩ = ⟨0#64, 0#64, 0#64, 0#64, 0#64, 0#64⟩ := by
  simp only [keyExpand_words, regAfter_zeroReg, lfsrStepN_zeroReg (le_refl 64)]

/-- An accepted expansion, field by field: what is not named is as it was (42_key_schedule.md R184, R185). -/
theorem respond_expandInto (s : State) (b : Reg) :
    respond (expandInto s b) [] =
      { s with
          r0 := ⟨(keyExpand b).w0, (keyExpand b).w1⟩, r1 := ⟨(keyExpand b).w2, (keyExpand b).w3⟩,
          r2 := ⟨(keyExpand b).w4, (keyExpand b).w5⟩, b := ⟨0#64, 0#64⟩, pos := 0#64,
          responses := s.responses ++ [⟨true, []⟩] } := rfl

/-- KSDRV is KSEXP with its first two operands in B, whatever the other two are. -/
theorem exec_ksdrv_eq_ksexp (d0 d1 d2 d3 : Word) (s : State) :
    exec (.ksdrv d0 d1 d2 d3) s = exec .ksexp { s with b := ⟨d0, d1⟩ } := rfl

/-! ### One command of a run -/

/-- The transaction that encodes a command, when it decodes to that command, runs it in one step. -/
theorem step_transactionOf {i : Instr} (hi : decode (encode i).1 (encode i).2 = .ok i) (s : State)
    (acts : List HostAction) :
    step (withActions s (transactionOf i :: acts)) = exec i (withActions s acts) :=
  (step_cons (a := transactionOf i) (rest := acts) rfl).trans (transact_ok hi _)

theorem decode_encode_ksdrv (d0 d1 d2 d3 : Word) :
    decode (encode (.ksdrv d0 d1 d2 d3)).1 (encode (.ksdrv d0 d1 d2 d3)).2 = .ok (.ksdrv d0 d1 d2 d3) :=
  decode_cmdWord (o := .ksdrv) (rs := 0#2) (n := 0#7) (ops := [d0, d1, d2, d3]) rfl rfl rfl

theorem decode_encode_ksexp : decode (encode .ksexp).1 (encode .ksexp).2 = .ok .ksexp :=
  decode_cmdWord (o := .ksexp) (rs := 0#2) (n := 0#7) (ops := []) rfl rfl rfl

theorem decode_encode_rld_b (hi lo : Word) :
    decode (encode (.rld .b hi lo)).1 (encode (.rld .b hi lo)).2 = .ok (.rld .b hi lo) :=
  decode_cmdWord (o := .rld) (rs := 3#2) (n := 0#7) (ops := [hi, lo]) rfl rfl rfl

/-! ### The bytes a digest word reads (20_memory.md R73) -/

/-- Digests with the same first n bytes have the same words in them. -/
theorem digestWord_eq_of_take_eq {d d' : List Byte} {n j : Nat} (h : d'.take n = d.take n) (hj : 8 * j + 8 ≤ n) :
    digestWord d' j = digestWord d j := by
  have within : ∀ l : List Byte, (l.drop (8 * j)).take 8 = ((l.take n).drop (8 * j)).take 8 := fun l => by
    rw [List.drop_take, List.take_take, min_eq_left (by omega)]
  rw [digestWord, digestWord, within d', h, ← within d]

/-! ### The statements -/

/-- Settles O38: the six words are those of the expansion of (D0, D1). -/
theorem ksdrvSeedsTheCombiner : Obligations.KsdrvSeedsTheCombiner :=
  ⟨commandLegality_of_row .ksdrv rsCheck_zero_none_iff nCheck_zero_none_iff, decode_encode_ksdrv,
    fun d0 d1 => ⟨_, _, _, _, _, _,
      fun d2 d3 s => (exec_ksdrv d0 d1 d2 d3 s).trans (congrArg _ (respond_expandInto s ⟨d0, d1⟩)),
      fun _ hj => keyExpand_getLsbD ⟨d0, d1⟩ hj⟩⟩

/-- Settles O39: the six words are those of the expansion of B; RLD B puts into B what KSDRV expands. -/
theorem ksexpExpandsB : Obligations.KsexpExpandsB := by
  refine ⟨commandLegality_of_row .ksexp rsCheck_zero_none_iff nCheck_zero_none_iff, decode_encode_ksexp,
    fun b => ⟨_, _, _, _, _, _, ?_, fun _ hj => keyExpand_getLsbD b hj⟩, fun s d0 d1 d2 d3 => ?_⟩
  · rintro s rfl
    exact (exec_ksexp s).trans (congrArg _ (respond_expandInto s s.b))
  · have derive := (step_transactionOf (decode_encode_ksdrv d0 d1 d2 d3) s []).trans (exec_ksdrv d0 d1 d2 d3 _)
    have load := (step_transactionOf (decode_encode_rld_b d0 d1) s [transactionOf .ksexp]).trans (exec_rld .b d0 d1 _)
    have expand := (step_transactionOf decode_encode_ksexp
      (respond (writeReg (withActions s []) .b ⟨d0, d1⟩) []) []).trans (exec_ksexp _)
    exact ⟨_, _, Runs_succ derive (run_zero _), Runs_succ load (Runs_succ expand (run_zero _)),
      rfl, rfl, rfl, rfl, rfl, rfl, rfl⟩

/-- Settles O40: w0 and w1 are the two words of R147, and the output from bit 128 on is the feedback. -/
theorem expansionOfTheSeedBits : Obligations.ExpansionOfTheSeedBits := by
  intro s
  obtain ⟨-, -, -, -, reversedLo, reversedHi⟩ := registerOutputSequence s.b
  refine ⟨_, _, _, _, _, _, _, exec_ksexp s, rfl, rfl, rfl, reversedLo, reversedHi, fun j hj => ?_⟩
  obtain ⟨-, -, w2, w3, w4, w5⟩ := keyExpand_getLsbD s.b hj
  have feedback : ∀ m, outBit s.b (128 + m + j) = lfsrFb (regAfter s.b (m + j)) := fun m => by
    rw [Nat.add_assoc, outBit_128_add]
  exact ⟨w2.trans (outBit_128_add s.b j), w3.trans (feedback 64), w4.trans (feedback 128), w5.trans (feedback 192)⟩

/-- Settles O41: KSEXP by `keyExpand_zeroReg`, and KSDRV as KSEXP with zero in B. -/
theorem zeroSeedGivesTheZeroCombiner : Obligations.ZeroSeedGivesTheZeroCombiner := by
  have ksexp : ∀ s, s.b = ⟨0#64, 0#64⟩ → exec .ksexp s = .next { s with
      r0 := ⟨0#64, 0#64⟩, r1 := ⟨0#64, 0#64⟩, r2 := ⟨0#64, 0#64⟩, b := ⟨0#64, 0#64⟩, pos := 0#64,
      responses := s.responses ++ [⟨true, []⟩] } := fun s hb => by
    rw [exec_ksexp, hb, respond_expandInto, keyExpand_zeroReg]
  exact ⟨fun d2 d3 s => (exec_ksdrv_eq_ksexp 0#64 0#64 d2 d3 s).trans (ksexp _ rfl), ksexp⟩

/-- Settles O42: D0 and D1 are the two halves by R73, and they lie in the first sixteen bytes. -/
theorem seedIsTheFirstSixteenDigestBytes : Obligations.SeedIsTheFirstSixteenDigestBytes := by
  intro d s hd byte seedHigh seedLow
  have high : digestWord d 0 = seedHigh := digestPacking d hd 0 (by decide)
  have low : digestWord d 1 = seedLow := digestPacking d hd 1 (by decide)
  refine ⟨_, exec_ksdrv _ _ _ _ s, ?_, fun d' _ same => ?_⟩
  · rw [high, low]
    exact exec_ksexp _
  · rw [digestWord_eq_of_take_eq same (j := 0) (by decide), digestWord_eq_of_take_eq same (j := 1) (by decide)]
    exact exec_ksdrv _ _ _ _ s

end Sys2Proof.Machine
end

section
/-! The combiner (44_combiner.md): how often each register is clocked, the free-running control register, the combiners with
zero registers, and the two commands CSTEP and CSTEPN. The clock counts say what the registers hold after any number of
keystream bits; the other facts about the combiner's state are read off them. -/

namespace Sys2Proof.Machine

/-! ### The registers after m keystream bits (44_combiner.md R213, R214) -/

/-- Each keystream bit clocks R2 once, R0 once more on control 1 and R1 twice more. -/
theorem combAfter_eq (c : Combiner) (m : Nat) :
    combAfter c m = ⟨regAfter c.r0 (m + ctrlCount c m), regAfter c.r1 (m + 2 * ctrlCount c m), regAfter c.r2 m⟩ := by
  induction m with
  | zero => rfl
  | succ m ih =>
    have control : lfsrFb (regAfter c.r2 m) = ctrlBit c m := by rw [ctrlBit, ih]
    have clocks0 : m + ctrlCount c m + (1 + (ctrlBit c m).toNat) = m + 1 + ctrlCount c (m + 1) := by
      rw [ctrlCount]; omega
    have clocks1 : m + 2 * ctrlCount c m + (1 + 2 * (ctrlBit c m).toNat) = m + 1 + 2 * ctrlCount c (m + 1) := by
      rw [ctrlCount]; omega
    rw [combAfter_succ', ih, combStep_state]
    simp only [control, ← regAfter_add, ← regAfter_succ', clocks0, clocks1]

theorem combAfter_r2 (c : Combiner) (m : Nat) : (combAfter c m).r2 = regAfter c.r2 m := by rw [combAfter_eq]

/-- The control bit of keystream bit t comes out of R2 128 steps later. -/
theorem ctrlBit_eq_outBit (c : Combiner) (t : Nat) : ctrlBit c t = outBit c.r2 (t + 128) := by
  rw [ctrlBit, combAfter_r2, lfsrFb_regAfter]

/-- A keystream bit is the XOR of the lowest bits of R0 and R1 (44_combiner.md R211). -/
theorem keyBit_eq (c : Combiner) (t : Nat) :
    keyBit c t = ((combAfter c t).r0.lo.getLsbD 0 ^^ (combAfter c t).r1.lo.getLsbD 0) := rfl

/-! ### Zero registers stay zero (44_combiner.md R215) -/

theorem combAfter_r0_zeroReg (r1 r2 : Reg) (t : Nat) : (combAfter ⟨⟨0#64, 0#64⟩, r1, r2⟩ t).r0 = ⟨0#64, 0#64⟩ := by
  rw [combAfter_eq, regAfter_zeroReg]

theorem combAfter_r1_zeroReg (r0 r2 : Reg) (t : Nat) : (combAfter ⟨r0, ⟨0#64, 0#64⟩, r2⟩ t).r1 = ⟨0#64, 0#64⟩ := by
  rw [combAfter_eq, regAfter_zeroReg]

theorem combAfter_zeroCombiner (t : Nat) :
    combAfter ⟨⟨0#64, 0#64⟩, ⟨0#64, 0#64⟩, ⟨0#64, 0#64⟩⟩ t = ⟨⟨0#64, 0#64⟩, ⟨0#64, 0#64⟩, ⟨0#64, 0#64⟩⟩ := by
  simp only [combAfter_eq, regAfter_zeroReg]

/-- With R1 zero the keystream is the output of R0. -/
theorem keyBit_r1_zeroReg (r0 r2 : Reg) (t : Nat) :
    keyBit ⟨r0, ⟨0#64, 0#64⟩, r2⟩ t = (combAfter ⟨r0, ⟨0#64, 0#64⟩, r2⟩ t).r0.lo.getLsbD 0 := by
  rw [keyBit_eq, combAfter_r1_zeroReg, BitVec.getLsbD_zero, Bool.xor_false]

/-- With R0 zero the keystream is the output of R1. -/
theorem keyBit_r0_zeroReg (r1 r2 : Reg) (t : Nat) :
    keyBit ⟨⟨0#64, 0#64⟩, r1, r2⟩ t = (combAfter ⟨⟨0#64, 0#64⟩, r1, r2⟩ t).r1.lo.getLsbD 0 := by
  rw [keyBit_eq, combAfter_r0_zeroReg, BitVec.getLsbD_zero, Bool.false_xor]

/-- With both zero the keystream is zero, whatever R2 holds. -/
theorem keyBit_r0_r1_zeroReg (r2 : Reg) (t : Nat) : keyBit ⟨⟨0#64, 0#64⟩, ⟨0#64, 0#64⟩, r2⟩ t = false := by
  rw [keyBit_r1_zeroReg, combAfter_r0_zeroReg, BitVec.getLsbD_zero]

/-- Coding with eight zero keystream bits leaves the byte as it is (46_stream.md R240). -/
theorem codeByte_of_keyBit_false {c : Combiner} (h : ∀ j, keyBit c j = false) (d : Byte) : (codeByte d c).1 = d := by
  apply BitVec.eq_of_getLsbD_eq
  intro i hi
  have bit := codeByte_getLsbD d c (show 7 - i < 8 by omega)
  rwa [h, Bool.xor_false, show 7 - (7 - i) = i by omega] at bit

/-- The data byte as a word is the operand with its other bits cleared (30_encoding.md R104). -/
theorem zextByte_dataByte (op : Word) : zextByte (dataByte op) = op &&& 0xFF#64 := by
  apply BitVec.eq_of_toNat_eq
  simp only [zextByte, dataByte, BitVec.toNat_setWidth, BitVec.extractLsb'_toNat, BitVec.toNat_and, BitVec.toNat_ofNat]
  rw [show 0xFF % 2 ^ 64 = 2 ^ 8 - 1 by decide, Nat.and_two_pow_sub_one_eq_mod, Nat.shiftRight_zero]
  omega

/-! ### One keystream bit, and keystream bits in two parts (44_combiner.md R211, R212) -/

/-- The two extra clocks of R211 written out. -/
theorem combStep_state_ite (c : Combiner) :
    (combStep c).2 =
      ⟨if lfsrFb c.r2 then lfsrNext (lfsrNext c.r0) else lfsrNext c.r0,
        if lfsrFb c.r2 then lfsrNext (lfsrNext (lfsrNext c.r1)) else lfsrNext c.r1, lfsrNext c.r2⟩ := by
  rw [combStep_state]
  cases lfsrFb c.r2 <;> rfl

/-- The loop run n + m times is the loop run n times and then m times. -/
theorem assembleBits_add {σ : Type} (f : σ → Bool × σ) (n m : Nat) (v : Word) (c : σ) :
    assembleBits f (n + m) v c = assembleBits f m (assembleBits f n v c).1 (assembleBits f n v c).2 := by
  induction n generalizing v c with
  | zero => rw [Nat.zero_add]; rfl
  | succ n ih => rw [Nat.succ_add, assembleBits, assembleBits, ih]

/-- What the loop starts from ends above the bits it takes. -/
theorem assembleBits_shift {σ : Type} (f : σ → Bool × σ) (n : Nat) (v : Word) (c : σ) :
    (assembleBits f n v c).1 = v <<< n ||| (assembleBits f n 0#64 c).1 := by
  apply BitVec.eq_of_getLsbD_eq
  intro j hj
  rw [BitVec.getLsbD_or, BitVec.getLsbD_shiftLeft, assembleBits_getLsbD _ _ _ _ hj, assembleBits_getLsbD _ _ _ _ hj]
  by_cases h : j < n <;> simp [h, hj]

/-- n bits and then m bits are the n + m bits, the first n above the others. -/
theorem combStepN_add (c : Combiner) (n m : Nat) :
    (combStepN c (n + m)).1 = (combStepN c n).1 <<< m ||| (combStepN (combAfter c n) m).1 := by
  rw [← combStepN_state, combStepN, assembleBits_add, assembleBits_shift]
  rfl

theorem combStepN_one (c : Combiner) : (combStepN c 1).1 = zextBit (keyBit c 0) := by
  simp [combStepN, assembleBits, keyBit]

/-! ### The word of a command that takes a count (30_encoding.md R101, R114) -/

/-- A command that takes a count and no operands: its word is the word with N = 0 and the count at bit 16. -/
theorem decode_cmdWord_count {o : Opcode} {rs : BitVec 2} {n : Nat} (hrs : rsCheck (opRow o).rs rs = none)
    (hcount : (opRow o).n = .count) (hops : (opRow o).operands = 0) (h1 : 1 ≤ n) (hn : n ≤ 64) :
    decode (cmdWord (opRow o).opc rs 0#7 ||| BitVec.ofNat 32 n <<< 16) [] = .ok (instrOf o (regSelOf rs) n []) := by
  have field : (BitVec.ofNat 7 n).toNat = n := by rw [BitVec.toNat_ofNat]; omega
  have legal : nCheck (opRow o).n (BitVec.ofNat 7 n) = none := by
    rw [hcount, nCheck_count_none_iff, field]
    exact ⟨h1, hn⟩
  have decoded := decode_cmdWord hrs legal (ops := []) hops.symm
  rwa [cmdWord_count _ _ hn, field] at decoded

/-! ### The statements -/

/-- Settles O45: `combAfter_eq`, with the iterates written out. -/
theorem combinerClockCounts : Obligations.CombinerClockCounts := combAfter_eq

/-- Settles O46: R2's part of the clock counts, and the feedback bit as an output bit still to come. -/
theorem controlRegisterRunsFree : Obligations.ControlRegisterRunsFree := fun c m =>
  ⟨combAfter_r2 c m, ctrlBit_eq_outBit c m⟩

/-- Settles O43: the state by `combStep_state_ite`, its control bit being the XOR of R2's taps. -/
theorem cstepProducesOneKeystreamBit : Obligations.CstepProducesOneKeystreamBit := by
  refine ⟨commandLegality_of_row .cstep rsCheck_zero_none_iff nCheck_zero_none_iff,
    decode_cmdWord (o := .cstep) (rs := 0#2) (n := 0#7) rfl rfl rfl, fun s => ?_⟩
  have state : combAfter (combiner s) 1 = _ := combStep_state_ite (combiner s)
  rw [exec_cstep, state, zextBit_eq_ite]
  rfl

/-- Settles O44: the value holds the keystream bits; two CSTEPNs in a row by `combStepN_add` and `combAfter_add`. -/
theorem cstepnProducesTheBitsMsbFirst : Obligations.CstepnProducesTheBitsMsbFirst := by
  refine ⟨commandLegality_of_row .cstepn rsCheck_zero_none_iff nCheck_count_none_iff,
    fun n h1 hn => ⟨decode_cmdWord_count (o := .cstepn) (rs := 0#2) rfl rfl rfl h1 hn,
      fun s => ⟨_, exec_cstepn n s, combStepN_holds (combiner s) hn⟩⟩, fun s => ?_,
    fun n m s _ _ _ => ?_⟩
  · rw [exec_cstepn, exec_cstep, combStepN_one]
  · have both := exec_cstepn (n + m) s
    rw [combStepN_add, combAfter_add] at both
    have pos : s.pos + BitVec.ofNat 64 n + BitVec.ofNat 64 m = s.pos + BitVec.ofNat 64 (n + m) := by
      rw [BitVec.add_assoc, BitVec.ofNat_add]
    exact ⟨_, _, _, _, _, exec_cstepn n s, rfl, exec_cstepn m _, rfl, both, rfl, rfl, rfl, rfl, rfl, pos, rfl, rfl⟩

/-- Settles O47: zero registers stay zero, so their part of each keystream bit is 0, and CODE XORs nothing in. -/
theorem zeroCombiner : Obligations.ZeroCombiner := by
  refine ⟨fun m => ⟨combAfter_zeroCombiner m, ?_⟩, fun s op h0 h1 h2 => ?_, keyBit_r0_r1_zeroReg, keyBit_r1_zeroReg,
    keyBit_r0_zeroReg⟩
  · rw [ctrlBit, combAfter_zeroCombiner, lfsrFb_zero]
  · have zero : combiner s = ⟨⟨0#64, 0#64⟩, ⟨0#64, 0#64⟩, ⟨0#64, 0#64⟩⟩ := by rw [combiner, h0, h1, h2]
    have stays : combAfter (combiner s) 8 = combiner s := by rw [zero, combAfter_zeroCombiner]
    have silent : ∀ j, keyBit (combiner s) j = false := by rw [zero]; exact keyBit_r0_r1_zeroReg _
    rw [exec_code, stays, codeByte_of_keyBit_false silent, zextByte_dataByte]
    rfl

end Sys2Proof.Machine
end

section
/-! The stream (46_stream.md): CODE, SKIP and CSTEPN 8 as keystream bits used up and responses delivered, a run of commands
that use up one keystream byte each, and coding as its own inverse. -/

namespace Sys2Proof.Machine

/-! ### Keystream bits used up, responses delivered -/

/-- The state with the combiner `n` keystream bits on, POS advanced by `n` (10_state.md R50) and the responses `rs`
delivered; all else as it was. -/
def streamed (s : State) (n : Nat) (rs : List Response) : State :=
  { s with
      r0 := (combAfter (combiner s) n).r0, r1 := (combAfter (combiner s) n).r1, r2 := (combAfter (combiner s) n).r2,
      pos := s.pos + BitVec.ofNat 64 n, responses := s.responses ++ rs }

theorem streamed_zero_nil (s : State) : streamed s 0 [] = s := by
  rw [streamed, combAfter_zero, BitVec.add_zero, List.append_nil]
  rfl

theorem streamed_streamed (s : State) (m n : Nat) (rs rs' : List Response) :
    streamed (streamed s m rs) n rs' = streamed s (m + n) (rs ++ rs') := by
  rw [streamed.eq_1 s (m + n), combAfter_add, BitVec.ofNat_add, ← BitVec.add_assoc, ← List.append_assoc]
  rfl

/-- The block that using up keystream leaves does not depend on the actions to come or on the responses delivered. -/
theorem sameBlock_streamed (s : State) (acts acts' : List HostAction) (n : Nat) (rs rs' : List Response) :
    SameBlock (streamed (withActions s acts) n rs) (streamed (withActions s acts') n rs') :=
  ⟨rfl, rfl, rfl, rfl, rfl, rfl, rfl⟩

theorem exec_code_streamed (op : Word) (s : State) :
    exec (.code op) s = .next (streamed s 8 [⟨true, [zextByte (codeByte (dataByte op) (combiner s)).1]⟩]) :=
  exec_code op s

theorem exec_cstepn_streamed (n : Nat) (s : State) :
    exec (.cstepn n) s = .next (streamed s n [⟨true, [(combStepN (combiner s) n).1]⟩]) :=
  exec_cstepn n s

/-- A positive count, read as signed, is the operand word as a number (00_scope.md R16). -/
theorem toNat_toInt_of_pos {op : Word} (h : 0 < op.toInt) : op.toInt.toNat = op.toNat := by
  rw [BitVec.toInt_eq_toNat_cond] at h ⊢
  split at h <;> omega

theorem exec_skip_streamed {op : Word} (h : 0 < op.toInt) (s : State) :
    exec (.skip op) s = .next (streamed s (8 * op.toNat) [⟨true, []⟩]) := by
  rw [exec_skip_pos h, toNat_toInt_of_pos h]
  rfl

/-! ### One keystream byte (46_stream.md R240, R243) -/

@[simp] theorem dataByte_zextByte (d : Byte) : dataByte (zextByte d) = d := by
  apply BitVec.eq_of_toNat_eq
  simpa [dataByte, zextByte] using d.isLt

theorem dataByte_getLsbD (op : Word) {i : Nat} (hi : i < 8) : (dataByte op).getLsbD i = op.getLsbD i := by
  simp [dataByte, hi]

/-- Coding is its own inverse: the same keystream byte is XORed in twice (46_stream.md R243). -/
theorem codeByte_codeByte (d : Byte) (c : Combiner) : (codeByte (codeByte d c).1 c).1 = d := by
  simp only [codeByte, BitVec.xor_assoc, BitVec.xor_self, BitVec.xor_zero]

/-! ### What a run answers, one keystream byte for each item -/

/-- `f` of each item and the combiner it meets, which is 8 keystream bits on from one item to the next. -/
def perByte {α β : Type} (f : α → Combiner → β) : List α → Combiner → List β
  | [], _ => []
  | x :: xs, c => f x c :: perByte f xs (combAfter c 8)

@[simp] theorem perByte_length {α β : Type} (f : α → Combiner → β) (xs : List α) (c : Combiner) :
    (perByte f xs c).length = xs.length := by
  induction xs generalizing c with
  | nil => rfl
  | cons x xs ih => rw [perByte, List.length_cons, ih, List.length_cons]

theorem map_perByte {α β γ : Type} (g : β → γ) (f : α → Combiner → β) (xs : List α) (c : Combiner) :
    (perByte f xs c).map g = perByte (fun x c => g (f x c)) xs c := by
  induction xs generalizing c with
  | nil => rfl
  | cons x xs ih => rw [perByte, List.map_cons, ih, perByte]

/-- What is its own inverse on one item, at every combiner, is its own inverse on a list. -/
theorem perByte_perByte {α : Type} {f : α → Combiner → α} (h : ∀ x c, f (f x c) c = x) (xs : List α) (c : Combiner) :
    perByte f (perByte f xs c) c = xs := by
  induction xs generalizing c with
  | nil => rfl
  | cons x xs ih => rw [perByte, perByte, h, ih]

/-- The bytes that coding `data` from the combiner `c` answers, one by one (46_stream.md R240). -/
def codeBytes (data : List Byte) (c : Combiner) : List Byte := perByte (fun d c => (codeByte d c).1) data c

theorem codeBytes_length (data : List Byte) (c : Combiner) : (codeBytes data c).length = data.length :=
  perByte_length _ data c

/-- From the same combiner, coding the coded bytes returns the data (46_stream.md R243). -/
theorem codeBytes_codeBytes (data : List Byte) (c : Combiner) : codeBytes (codeBytes data c) c = data :=
  perByte_perByte codeByte_codeByte data c

/-! ### A run of commands that use up one keystream byte each -/

/-- The transaction of `i` is accepted, uses up 8 keystream bits and answers the word that `answer` makes of the
combiner. -/
structure StreamsByte (i : Instr) (answer : Combiner → Word) : Prop where
  decodes : decode (encode i).1 (encode i).2 = .ok i
  runs : ∀ s, exec i s = .next (streamed s 8 [⟨true, [answer (combiner s)]⟩])

theorem decode_encode_code (op : Word) : decode (encode (.code op)).1 (encode (.code op)).2 = .ok (.code op) :=
  decode_cmdWord (o := .code) (rs := 0#2) (n := 0#7) (ops := [op]) rfl rfl rfl

theorem streamsByte_code (op : Word) : StreamsByte (.code op) fun c => zextByte (codeByte (dataByte op) c).1 :=
  ⟨decode_encode_code op, exec_code_streamed op⟩

theorem streamsByte_cstepn : StreamsByte (.cstepn 8) fun c => (combStepN c 8).1 :=
  ⟨decode_cmdWord (o := .cstepn) (rs := 0#2) (n := 8#7) (ops := []) rfl rfl rfl, exec_cstepn_streamed 8⟩

/-- CODE of a data byte, zero-extended: it answers the coded byte. -/
theorem streamsByte_code_zextByte (d : Byte) :
    StreamsByte (.code (zextByte d)) fun c => zextByte (codeByte d c).1 := by
  simpa only [dataByte_zextByte] using streamsByte_code (zextByte d)

/-- Such commands, one for each item, use up 8 keystream bits each and answer as `perByte` says. -/
theorem Runs_streamsByte {α : Type} {cmd : α → Instr} {answer : α → Combiner → Word}
    (h : ∀ x, StreamsByte (cmd x) (answer x)) (xs : List α) (s : State) :
    Runs xs.length (withActions s (xs.map fun x => transactionOf (cmd x)))
      (streamed (withActions s []) (8 * xs.length) (perByte (fun x c => ⟨true, [answer x c]⟩) xs (combiner s))) := by
  induction xs generalizing s with
  | nil => exact (run_zero _).trans (congrArg _ (streamed_zero_nil _).symm)
  | cons x xs ih =>
    have first := (step_transactionOf (h x).decodes s (xs.map fun x => transactionOf (cmd x))).trans ((h x).runs _)
    have rest := ih (streamed s 8 [⟨true, [answer x (combiner s)]⟩])
    have joined := streamed_streamed (withActions s []) 8 (8 * xs.length) [⟨true, [answer x (combiner s)]⟩]
      (perByte (fun x c => ⟨true, [answer x c]⟩) xs (combAfter (combiner s) 8))
    rw [List.length_cons, Nat.mul_succ, Nat.add_comm (8 * xs.length)]
    exact Runs_succ first (rest.trans (congrArg _ joined))

/-- CODE of each byte of `data` answers the coded bytes. -/
theorem Runs_code (data : List Byte) (s : State) :
    Runs data.length (withActions s (data.map fun d => transactionOf (.code (zextByte d))))
      (streamed (withActions s []) (8 * data.length)
        ((codeBytes data (combiner s)).map fun d => ⟨true, [zextByte d]⟩)) := by
  rw [codeBytes, map_perByte]
  exact Runs_streamsByte streamsByte_code_zextByte data s

/-! ### The statements -/

/-- Settles O49: the answer is the coded data byte, whose bits are those of `codeByte_getLsbD`. -/
theorem codeXorsOneByte : Obligations.CodeXorsOneByte := by
  refine ⟨commandLegality_of_row .code rsCheck_zero_none_iff nCheck_zero_none_iff, decode_encode_code,
    fun op s => ⟨_, exec_code_streamed op s, fun j hj => ?_⟩⟩
  rw [codeByte_getLsbD _ _ hj, dataByte_getLsbD op (by omega)]

/-- Settles O50: a positive count k uses up 8k keystream bits, and 8k is 8 times the operand modulo 2^64. -/
theorem skipDiscardsKeystreamBytes : Obligations.SkipDiscardsKeystreamBytes := by
  refine ⟨commandLegality_of_row .skip rsCheck_zero_none_iff nCheck_zero_none_iff,
    fun op => decode_cmdWord (o := .skip) (rs := 0#2) (n := 0#7) (ops := [op]) rfl rfl rfl,
    fun op s h => exec_skip_nonpos h s, fun op s h => ?_⟩
  have pos : BitVec.ofNat 64 (8 * op.toNat) = 8#64 * op := by rw [← ofNat_toNat_toInt h, toNat_toInt_of_pos h]
  rw [exec_skip_streamed h, streamed, pos]

/-- Settles O51: both runs are `Runs_code`; the second meets the combiners the first met, so it undoes each byte. -/
theorem codingTwiceReturnsTheData : Obligations.CodingTwiceReturnsTheData := by
  intro data s
  have again := Runs_code (codeBytes data (combiner s)) s
  rw [codeBytes_codeBytes] at again
  refine ⟨codeBytes data (combiner s), _, _, Runs_code data s, rfl, codeBytes_length _ _, again, rfl, ?_⟩
  rw [codeBytes_length]
  exact sameBlock_streamed s [] [] _ _ _

/-- Settles O52: all three use up the same 8k keystream bits, SKIP in one command and the others in k. -/
theorem skipEqualsDiscardedBytes : Obligations.SkipEqualsDiscardedBytes := by
  intro op s data hpos hlen
  have stepped := Runs_streamsByte (fun _ : Unit => streamsByte_cstepn) (List.replicate op.toNat ()) s
  have coded := Runs_streamsByte streamsByte_code data s
  rw [List.length_replicate, List.map_replicate] at stepped
  rw [hlen] at coded
  exact ⟨_, _, _, exec_skip_streamed hpos s, stepped, coded,
    sameBlock_streamed s s.actions [] _ _ _, sameBlock_streamed s s.actions [] _ _ _⟩

end Sys2Proof.Machine
end

section
/-! The control commands (48_control.md): NOP, PRD, SRD and SRST, which share one "Encoding" and one "Rejected when" line but
for the opcode, and SRD as the second of two transactions. -/

namespace Sys2Proof.Machine

/-! ### Commands with no fields and no operands (30_encoding.md R110) -/

/-- A command whose row asks for RS = 0, N = 0 and no operand words is legal just then. -/
theorem commandLegality_bare {o : Opcode} (hrs : (opRow o).rs = .zero) (hn : (opRow o).n = .zero)
    (hops : (opRow o).operands = 0) : CommandLegality (opRow o).opc (· = 0#2) (· = 0#7) 0 := by
  have legality := commandLegality_of_row o (hrs ▸ rsCheck_zero_none_iff) (hn ▸ nCheck_zero_none_iff)
  rwa [hops] at legality

/-- The command word of such a command is its opcode, zero-extended. -/
theorem decode_bare {o : Opcode} (hrs : (opRow o).rs = .zero) (hn : (opRow o).n = .zero)
    (hops : (opRow o).operands = 0) :
    decode ((opRow o).opc.setWidth 32) [] = .ok (instrOf o .r0 0 []) := by
  have rsLegal : rsCheck (opRow o).rs 0#2 = none := by rw [hrs]; rfl
  have nLegal : nCheck (opRow o).n 0#7 = none := by rw [hn]; rfl
  have decoded := decode_cmdWord rsLegal nLegal (ops := []) hops.symm
  rwa [cmdWord_zero_count, BitVec.setWidth_zero, BitVec.zero_shiftLeft, BitVec.or_zero] at decoded

/-! ### SRD after a rejected transaction (48_control.md R272) -/

theorem decode_encode_srd : decode (encode .srd).1 (encode .srd).2 = .ok .srd :=
  decode_cmdWord (o := .srd) (rs := 0#2) (n := 0#7) (ops := []) rfl rfl rfl

/-- The rejection sets ILL and ERRCW, and SRD answers what it finds there. -/
theorem Runs_rejected_srd {s : State} {cw : CmdWord} {ops : List Word}
    (hs : s.actions = [.transaction cw ops, transactionOf .srd]) (h : ¬ Accepted cw ops) :
    Runs 2 s (respond (reject cw (withActions s [])) [statusWord cw true]) := by
  have rejected := rejects_of_not_accepted h s [transactionOf .srd] hs
  have read := (step_transactionOf decode_encode_srd (reject cw s) []).trans (exec_srd _)
  exact Runs_succ rejected (Runs_succ read (run_zero _))

/-! ### The statements -/

/-- Settles O55: NOP's row asks for zero fields and no operands, and the command only responds. -/
theorem nopDoesNothing : Obligations.NopDoesNothing :=
  ⟨commandLegality_bare (o := .nop) rfl rfl rfl, decode_bare (o := .nop) rfl rfl rfl, exec_nop⟩

/-- Settles O56: as NOP, with POS in the response. -/
theorem prdReadsPos : Obligations.PrdReadsPos :=
  ⟨commandLegality_bare (o := .prd) rfl rfl rfl, decode_bare (o := .prd) rfl rfl rfl, exec_prd⟩

/-- Settles O57: the word SRD answers is `statusWord`, whose value is `statusWord_toNat`; after a rejection its two fields
are those the rejection set. -/
theorem srdReadsStatus : Obligations.SrdReadsStatus :=
  ⟨commandLegality_bare (o := .srd) rfl rfl rfl, decode_bare (o := .srd) rfl rfl rfl,
    fun s => ⟨_, exec_srd s, statusWord_toNat s.errcw s.ill⟩,
    fun _ cw _ hs h => ⟨_, _, Runs_rejected_srd hs h, List.append_assoc _ _ _, statusWord_toNat cw true⟩⟩

/-- Settles O58: SRST is the reset of the block (R62) with a response. -/
theorem srstResetsEverything : Obligations.SrstResetsEverything :=
  ⟨commandLegality_bare (o := .srst) rfl rfl rfl, decode_bare (o := .srst) rfl rfl rfl, exec_srst⟩

end Sys2Proof.Machine
end

section
/-! Rejection and completion (60_exceptions.md R300 to R306): the listed causes are the checks of the opcode map that can
fail, a rejected transaction changes STATUS only, ILL is sticky, and every command completes. -/

namespace Sys2Proof.Machine

/-! ### The causes of rejection on a word whose opcode is a row's (60_exceptions.md R302) -/

/-- The reserved opcodes are those of no row. -/
theorem causeHolds_reservedOpcode_iff {cw : CmdWord} {ops : List Word} :
    CauseHolds .reservedOpcode cw ops ↔ ¬ ∃ o, cwOpc cw = (opRow o).opc := by
  have inMap : CauseHolds .reservedOpcode cw ops ↔ cwOpc cw ∉ allOpcodes.map fun o => (opRow o).opc := Iff.rfl
  have complete : ∀ o, o ∈ allOpcodes := fun o => by cases o <;> decide
  simp only [inMap, List.mem_map, complete, true_and, eq_comm]

theorem causeHolds_reservedBit_iff {cw : CmdWord} {ops : List Word} :
    CauseHolds .reservedBit cw ops ↔ reservedCheck cw ≠ none :=
  not_congr (reservedCheck_none_iff cw).symm

section
variable {cw : CmdWord} {o : Opcode} (h : cwOpc cw = (opRow o).opc) (ops : List Word)
include h

/-- The two causes in RS are the two ways the row's check of RS can fail. -/
theorem causeHolds_rs_iff :
    CauseHolds .rsNotB cw ops ∨ CauseHolds .rsNotZero cw ops ↔ rsCheck (opRow o).rs (cwRs cw) ≠ none := by
  unfold cwOpc at h
  cases o <;> simp [CauseHolds, h, opRow, cwRs]

/-- The two causes in N are the two ways the row's check of N can fail. -/
theorem causeHolds_n_iff :
    CauseHolds .nNotZero cw ops ∨ CauseHolds .nOutOfRange cw ops ↔ nCheck (opRow o).n (cwN cw) ≠ none := by
  unfold cwOpc at h
  cases o <;> simp [CauseHolds, CountField, h, opRow, cwN]

theorem causeHolds_operandCount_iff :
    CauseHolds .operandCount cw ops ↔ ops.length ≠ (opRow o).operands := by
  unfold cwOpc at h
  cases o <;> simp [CauseHolds, h, opRow]

/-- On a row's word, some listed cause holds exactly when some check of the row fails. -/
theorem exists_cause_iff_firstCause : (∃ c, CauseHolds c cw ops) ↔ firstCause o cw ops ≠ none := by
  have named : ¬ CauseHolds .reservedOpcode cw ops := fun reserved => causeHolds_reservedOpcode_iff.mp reserved ⟨o, h⟩
  have bits := causeHolds_reservedBit_iff (cw := cw) (ops := ops)
  have rs := causeHolds_rs_iff h ops
  have n := causeHolds_n_iff h ops
  have operands := causeHolds_operandCount_iff h ops
  rw [Ne, firstCause_none_iff, ← reservedCheck_none_iff]
  constructor
  · rintro ⟨c, hc⟩ ⟨bitsPass, rsPass, nPass, operandsPass⟩
    cases c with
    | reservedOpcode => exact named hc
    | reservedBit => exact bits.mp hc bitsPass
    | rsNotB => exact rs.mp (.inl hc) rsPass
    | rsNotZero => exact rs.mp (.inr hc) rsPass
    | nNotZero => exact n.mp (.inl hc) nPass
    | nOutOfRange => exact n.mp (.inr hc) nPass
    | operandCount => exact operands.mp hc operandsPass
  · intro fails
    by_contra noCause
    have none_holds : ∀ c, ¬ CauseHolds c cw ops := not_exists.mp noCause
    exact fails ⟨not_ne_iff.mp (mt bits.mpr (none_holds _)),
      not_ne_iff.mp (mt rs.mpr (not_or.mpr ⟨none_holds _, none_holds _⟩)),
      not_ne_iff.mp (mt n.mpr (not_or.mpr ⟨none_holds _, none_holds _⟩)),
      not_ne_iff.mp (mt operands.mpr (none_holds _))⟩

end

/-- The listed causes are every cause of rejection: a word of no row is not accepted and has a reserved opcode, and on a
row's word `exists_cause_iff_firstCause` decides. -/
theorem not_accepted_iff_exists_cause {cw : CmdWord} {ops : List Word} :
    ¬ Accepted cw ops ↔ ∃ c, CauseHolds c cw ops := by
  by_cases row : ∃ o, cwOpc cw = (opRow o).opc
  · obtain ⟨o, h⟩ := row
    rw [accepted_of_opc h, exists_cause_iff_firstCause h]
  · refine iff_of_true (fun accepted => ?_) ⟨.reservedOpcode, causeHolds_reservedOpcode_iff.mpr row⟩
    obtain ⟨o, h, -⟩ := accepted_iff.mp accepted
    exact row ⟨o, h⟩

/-! ### What a step and a command do to ILL and to the responses -/

/-- No transaction but an accepted SRST clears ILL (60_exceptions.md R306). -/
theorem transact_keeps_ill {cw : CmdWord} {ops : List Word} {s : State} (hd : decode cw ops ≠ .ok .srst)
    (hs : s.ill = true) : ∃ t, transact cw ops s = .next t ∧ t.ill = true := by
  cases h : decode cw ops with
  | ok i =>
    obtain ⟨t, ht, ill, -⟩ := exec_keeps_status s (i := i) fun hi => hd (hi ▸ h)
    exact ⟨t, (transact_ok h s).trans ht, ill.trans hs⟩
  | error c => exact ⟨_, transact_error h s, reject_ill cw s⟩

/-- Every command ends in one `respond` with the words of its row, over a state whose lists are as before
(60_exceptions.md R300). -/
theorem exec_responds (i : Instr) (s : State) :
    ∃ u ws, exec i s = .next (respond u ws) ∧ ws.length = responseWords i ∧ u.actions = s.actions ∧
      u.responses = s.responses := by
  cases i with
  | rld rs hi lo => cases rs <;> exact ⟨_, _, rfl, rfl, rfl, rfl⟩
  | skip op =>
    rcases lt_or_ge 0 op.toInt with h | h
    · exact ⟨_, _, exec_skip_pos h s, rfl, rfl, rfl⟩
    · exact ⟨_, _, exec_skip_nonpos h s, rfl, rfl, rfl⟩
  | _ => exact ⟨_, _, rfl, rfl, rfl, rfl⟩ -- no operation below these arms' `respond` writes `actions` or `responses`

/-! ### The statements -/

/-- Settles O9: each cause excludes acceptance by `not_accepted_iff_exists_cause`, so it leads to the one rejection; the
example words are evaluated. -/
theorem rejectionCauses : Obligations.RejectionCauses := by
  refine ⟨fun _ _ => not_accepted_iff_exists_cause,
    fun c _ _ hc => rejects_of_not_accepted (not_accepted_iff_exists_cause.mpr ⟨c, hc⟩), ?_⟩
  simp [CauseHolds, ReservedZero, CountField]

/-- Settles O18: the response `exec_responds` names is added to those the state had. -/
theorem everyCommandCompletes : Obligations.EveryCommandCompletes := by
  intro i s
  obtain ⟨u, ws, executed, count, actions, responses⟩ := exec_responds i s
  exact ⟨respond u ws, ws, executed, count, actions, by rw [respond_responses, responses]⟩

/-- Settles O24: a waiting block keeps ILL, and a transaction does by `transact_keeps_ill`; of two rejections in a row the
second writes ERRCW last. -/
theorem illIsSticky : Obligations.IllIsSticky := by
  refine ⟨fun s hs noReset noSrst => ?_, fun s cw ops cw' ops' hs first second => ?_⟩
  · cases ha : s.actions with
    | nil => exact ⟨s, step_nil ha, hs⟩
    | cons a rest =>
      cases a with
      | reset => exact absurd ha (noReset rest)
      | transaction cw ops =>
        obtain ⟨t, ht, ill⟩ :=
          transact_keeps_ill (s := { s with actions := rest }) (noSrst cw ops rest ha) hs
        exact ⟨t, (step_cons ha).trans ht, ill⟩
  · have rejected := rejects_of_not_accepted first s _ hs
    have rejectedAgain := rejects_of_not_accepted second (reject cw { s with actions := [.transaction cw' ops'] }) [] rfl
    exact ⟨_, Runs_succ rejected (Runs_succ rejectedAgain (run_zero _)), rfl, rfl⟩

/-- Settles O14: a transaction that decodes to no command is not accepted, and its rejection is the whole step. -/
theorem rejectionChangesOnlyStatus : Obligations.RejectionChangesOnlyStatus := fun s _ _ rest c hs hd =>
  rejects_of_not_accepted (decode_error_iff.mp ⟨c, hd⟩) s rest hs

end Sys2Proof.Machine
end

section
/-! Reset and runs (70_reset_and_hazards.md R341, R350, R361): a waiting block, the responses a run of host actions adds, and
the zero keystream of a block that has not been seeded. -/

namespace Sys2Proof.Machine

/-! ### A block with no action to come (70_reset_and_hazards.md R341) -/

theorem Runs_of_no_actions {s : State} (h : s.actions = []) (n : Nat) : Runs n s s := by
  induction n with
  | zero => exact run_zero s
  | succ n ih => exact Runs_succ (step_nil h) ih

/-! ### The responses of a run (70_reset_and_hazards.md R361) -/

theorem transactionCount_cons (a : HostAction) (acts : List HostAction) :
    transactionCount (a :: acts) = transactionCount [a] + transactionCount acts := by
  cases a with
  | transaction cw ops => exact Nat.add_comm _ 1
  | reset => exact (Nat.zero_add _).symm

/-- A transaction is answered once, whether its command runs or it is rejected; the reset input is not answered. -/
theorem perform_responds (a : HostAction) (s : State) :
    ∃ t rs, perform a s = .next t ∧ t.actions = s.actions ∧ t.responses = s.responses ++ rs ∧
      rs.length = transactionCount [a] := by
  cases a with
  | reset => exact ⟨_, [], rfl, rfl, (List.append_nil _).symm, rfl⟩
  | transaction cw ops =>
    cases hd : decode cw ops with
    | ok i =>
      obtain ⟨u, ws, executed, -, actions, responses⟩ := exec_responds i s
      exact ⟨_, [⟨true, ws⟩], (transact_ok hd s).trans executed, actions, by rw [respond_responses, responses], rfl⟩
    | error c => exact ⟨_, [⟨false, []⟩], transact_error hd s, rfl, rfl, rfl⟩

/-- A run through all the actions to come adds as many responses as there are transactions among them. -/
theorem Runs_responds (acts : List HostAction) {s : State} (h : s.actions = acts) :
    ∃ t rs, Runs acts.length s t ∧ t.actions = [] ∧ t.responses = s.responses ++ rs ∧
      rs.length = transactionCount acts := by
  induction acts generalizing s with
  | nil => exact ⟨s, [], run_zero s, h, (List.append_nil _).symm, rfl⟩
  | cons a acts ih =>
    obtain ⟨u, first, performed, actions, responses, count⟩ := perform_responds a { s with actions := acts }
    obtain ⟨t, rest, run, noActions, restResponses, restCount⟩ := ih actions
    refine ⟨t, first ++ rest, Runs_succ ((step_cons h).trans performed) run, noActions, ?_, ?_⟩
    · rw [restResponses, responses, List.append_assoc]
    · rw [List.length_append, count, restCount, ← transactionCount_cons]

/-! ### Coding on a zero keystream (70_reset_and_hazards.md R350) -/

theorem codeBytes_of_keyBit_false (data : List Byte) {c : Combiner} (h : ∀ j, keyBit c j = false) :
    codeBytes data c = data := by
  rw [codeBytes]
  induction data generalizing c with
  | nil => rfl
  | cons d data ih =>
    have later : ∀ j, keyBit (combAfter c 8) j = false := fun j => by rw [← keyBit_add, h]
    rw [perByte, codeByte_of_keyBit_false h, ih later]

theorem keyBit_reset (k : Nat) : keyBit (combiner State.reset) k = false := keyBit_r0_r1_zeroReg _ k

/-! ### The statements -/

/-- Settles O19: `Runs_responds` from the state with the given actions to come. -/
theorem runAnswersEveryTransaction : Obligations.RunAnswersEveryTransaction :=
  fun acts _ => Runs_responds acts rfl

/-- Settles O53: the reset combiner is zero; that the four commands are answered is `exec_responds`, which holds of every
command; and the bytes `Runs_code` answers are the data, by `codeBytes_of_keyBit_false`. -/
theorem codingBeforeSeedingIsInTheClear : Obligations.CodingBeforeSeedingIsInTheClear := by
  refine ⟨keyBit_reset, fun i _ => ?_, fun data => ?_⟩
  · obtain ⟨u, ws, executed, -, -, responses⟩ := exec_responds i State.reset
    exact ⟨_, ws, executed, by rw [respond_responses, responses]; rfl⟩
  · have run := Runs_code data State.reset
    rw [codeBytes_of_keyBit_false data keyBit_reset] at run
    exact ⟨_, run, rfl⟩

/-- Settles O15: the step is `resetBlock`, which leaves the actions to come as they are, so after the last of them the block
waits; SRST is `resetBlock` with a response. -/
theorem resetInput : Obligations.ResetInput := by
  refine ⟨fun _ _ => step_reset, fun s n h => ?_, fun s rest t h ht => ?_⟩
  · exact ⟨_, Runs_succ (step_reset h) (run_zero _), Runs_of_no_actions rfl n⟩
  · cases (step_reset h).symm.trans ht
    exact ⟨_, exec_srst s, rfl, rfl, rfl, rfl, rfl, rfl, rfl⟩

end Sys2Proof.Machine
end

section
/-! The encoder and the decoder as inverses of each other (30_encoding.md sections 2 to 4), the rows of
spec/opcode_table.json as the decoder's test of a word, and the lines of the assembler's syntax table (R125). -/

namespace Sys2Proof.Machine

/-! ### What the encoder writes passes the checks and is read back -/

/-- The encoding of a well-formed instruction carries the opcode of its row and passes the row's checks. -/
theorem encode_shape (i : Instr) : Laws.EncodeShape.Statement i := by
  cases i with
  | nop => exact Laws.EncodeShape.nop
  | rld rs hi lo => exact Laws.EncodeShape.rld rs hi lo
  | rrd rs => exact Laws.EncodeShape.rrd rs
  | rstep => exact Laws.EncodeShape.rstep
  | rstepc => exact Laws.EncodeShape.rstepc
  | rstepn n => exact Laws.EncodeShape.rstepn n
  | ksdrv d0 d1 d2 d3 => exact Laws.EncodeShape.ksdrv d0 d1 d2 d3
  | ksexp => exact Laws.EncodeShape.ksexp
  | cstep => exact Laws.EncodeShape.cstep
  | cstepn n => exact Laws.EncodeShape.cstepn n
  | code op => exact Laws.EncodeShape.code op
  | skip op => exact Laws.EncodeShape.skip op
  | prd => exact Laws.EncodeShape.prd
  | srd => exact Laws.EncodeShape.srd
  | srst => exact Laws.EncodeShape.srst

/-- A legal count fits the field N (30_encoding.md R114). -/
theorem toNat_countField {n : Nat} (h : countOk n = true) : (BitVec.ofNat 7 n).toNat = n := by
  rw [countOk_iff] at h
  rw [BitVec.toNat_ofNat]
  omega

/-- The fields and operand words of the encoding name the instruction. -/
theorem instrOf_encode {i : Instr} (h : wellFormed i = true) :
    instrOf (opcodeOfInstr i) (regSelOf (cwRs (encode i).1)) (cwN (encode i).1).toNat (encode i).2 = i := by
  cases i with
  | rld rs hi lo => simp [encode, opcodeOfInstr, instrOf, operandAt]
  | rrd rs => simp [encode, opcodeOfInstr, instrOf]
  | rstepn n => simp only [encode, opcodeOfInstr, instrOf, cwN_cmdWord, toNat_countField h]
  | cstepn n => simp only [encode, opcodeOfInstr, instrOf, cwN_cmdWord, toNat_countField h]
  | _ => rfl -- the other commands name no register and no count, and their operand words stand whole

theorem decode_encode {i : Instr} (h : wellFormed i = true) : decode (encode i).1 (encode i).2 = .ok i := by
  obtain ⟨opc, z1, z2, rs, n, operands⟩ := encode_shape i h
  exact decode_eq_ok_iff.mpr
    ⟨_, opc, (firstCause_none_iff _ _ _).mpr ⟨⟨z1, z2⟩, rs, n, operands⟩, (instrOf_encode h).symm⟩

/-! ### What the decoder accepts is what the encoder writes -/

/-- The RS an encoding carries, from the row's rule and the register the command names (30_encoding.md R111). -/
def encodedRs : RsRule → RegSel → BitVec 2
  | .any, r => regSelCode r
  | .onlyB, _ => 3#2
  | .zero, _ => 0#2

/-- The N an encoding carries, from the row's rule and the command's count (30_encoding.md R113, R114). -/
def encodedN : NRule → Nat → BitVec 7
  | .count, n => BitVec.ofNat 7 n
  | .zero, _ => 0#7

/-- An RS that passes the row's check is the one the encoder writes for the register it selects. -/
theorem encodedRs_regSelOf {rule : RsRule} {v : BitVec 2} (h : rsCheck rule v = none) :
    encodedRs rule (regSelOf v) = v := by
  cases rule with
  | any => exact regSelCode_regSelOf v
  | onlyB => exact ((rsCheck_onlyB_none_iff v).mp h).symm
  | zero => exact ((rsCheck_zero_none_iff v).mp h).symm

/-- An N that passes the row's check is the one the encoder writes for its value. -/
theorem encodedN_toNat {rule : NRule} {v : BitVec 7} (h : nCheck rule v = none) : encodedN rule v.toNat = v := by
  cases rule with
  | count => exact BitVec.ofNat_toNat 7 v
  | zero => exact ((nCheck_zero_none_iff v).mp h).symm

/-- The encoder's fifteen cases, as one rule over the opcode map. -/
theorem encode_instrOf (o : Opcode) (r : RegSel) (n : Nat) (ops : List Word) :
    encode (instrOf o r n ops) =
      (cmdWord (opRow o).opc (encodedRs (opRow o).rs r) (encodedN (opRow o).n n),
        (List.range (opRow o).operands).map (operandAt ops)) := by
  cases o <;> rfl

/-- A list is its OPS[0], OPS[1], … -/
theorem map_operandAt (ops : List Word) : (List.range ops.length).map (operandAt ops) = ops := by
  have all := take_drop_eq_map_getD ops 0#64 (k := 0) (n := ops.length) (by omega)
  simp only [Nat.zero_add, List.drop_zero, List.take_length] at all
  exact all.symm

theorem encode_of_decode {cw : CmdWord} {ops : List Word} {i : Instr} (h : decode cw ops = .ok i) :
    encode i = (cw, ops) := by
  obtain ⟨o, hopc, hc, rfl⟩ := decode_eq_ok_iff.mp h
  obtain ⟨⟨z1, z2⟩, hrs, hn, hops⟩ := (firstCause_none_iff o cw ops).mp hc
  rw [encode_instrOf, encodedRs_regSelOf hrs, encodedN_toNat hn, ← hopc, cmdWord_fields z1 z2, ← hops, map_operandAt]

/-! ### The rows of spec/opcode_table.json -/

/-- A command word is its five fields (30_encoding.md R101). -/
theorem eq_iff_fields {v w : CmdWord} :
    v = w ↔ cwOpc v = cwOpc w ∧ cwRs v = cwRs w ∧ cwZ1 v = cwZ1 w ∧ cwN v = cwN w ∧ cwZ2 v = cwZ2 w := by
  refine ⟨fun h => h ▸ ⟨rfl, rfl, rfl, rfl, rfl⟩, fun ⟨opc, rs, z1, n, z2⟩ => ?_⟩
  simp only [cwOpc, cwRs, cwZ1, cwN, cwZ2, ← BitVec.toNat_inj, BitVec.extractLsb'_toNat,
    Nat.shiftRight_eq_div_pow] at opc rs z1 n z2
  exact BitVec.eq_of_toNat_eq (by omega)

/-- The RS bits a row's mask covers: none where any register may stand. -/
def rsMask : RsRule → BitVec 2
  | .any => 0#2
  | .onlyB => BitVec.allOnes 2
  | .zero => BitVec.allOnes 2

/-- The N bits a row's mask covers: none where a count stands. -/
def nMask : NRule → BitVec 7
  | .count => 0#7
  | .zero => BitVec.allOnes 7

/-- A row's mask covers OPC and the reserved bits whole, and RS and N as the row's rules say. -/
theorem tableRow_mask (o : Opcode) :
    cwOpc (tableRow o).1 = BitVec.allOnes 8 ∧ cwRs (tableRow o).1 = rsMask (opRow o).rs ∧
      cwZ1 (tableRow o).1 = BitVec.allOnes 6 ∧ cwN (tableRow o).1 = nMask (opRow o).n ∧
      cwZ2 (tableRow o).1 = BitVec.allOnes 9 := by
  cases o <;> decide

/-- A row's match is the word of its command for register 0 and count 0. -/
theorem tableRow_match (o : Opcode) :
    (tableRow o).2 = cmdWord (opRow o).opc (encodedRs (opRow o).rs .r0) (encodedN (opRow o).n 0) := by
  cases o <;> rfl

theorem rsCheck_iff_mask (rule : RsRule) (v : BitVec 2) :
    rsCheck rule v = none ↔ v &&& rsMask rule = encodedRs rule .r0 := by
  cases rule with
  | any => simp [rsMask, encodedRs, regSelCode]
  | onlyB => rw [rsCheck_onlyB_none_iff, rsMask, BitVec.and_allOnes, encodedRs]
  | zero => rw [rsCheck_zero_none_iff, rsMask, BitVec.and_allOnes, encodedRs]

theorem nCheck_iff_mask (rule : NRule) (v : BitVec 7) :
    nCheck rule v = none ↔ v &&& nMask rule = encodedN rule 0 ∧ (rule = .count → 1 ≤ v.toNat ∧ v.toNat ≤ 64) := by
  cases rule with
  | count => simp [nMask, encodedN]
  | zero => simp only [nCheck_zero_none_iff, nMask, BitVec.and_allOnes, encodedN, reduceCtorEq, false_imp_iff, and_true]

/-- The rows with a count are those of RSTEPN and CSTEPN (30_encoding.md R114). -/
theorem count_iff (o : Opcode) : (opRow o).n = .count ↔ o = .rstepn ∨ o = .cstepn := by
  cases o <;> decide

/-- A word under a mask, field by field. -/
theorem and_eq_iff_fields {cw m v : CmdWord} :
    cw &&& m = v ↔ cwOpc cw &&& cwOpc m = cwOpc v ∧ cwRs cw &&& cwRs m = cwRs v ∧ cwZ1 cw &&& cwZ1 m = cwZ1 v ∧
      cwN cw &&& cwN m = cwN v ∧ cwZ2 cw &&& cwZ2 m = cwZ2 v := by
  rw [eq_iff_fields]
  simp only [cwOpc, cwRs, cwZ1, cwN, cwZ2, BitVec.extractLsb'_and]

/-- A word matches the table's row for `o`, with a count from 1 to 64 where the row has one, just when it has the opcode of
`o`, zero reserved bits, and an RS and an N that pass the checks of `o`. -/
theorem tableRow_match_iff (cw : CmdWord) (o : Opcode) :
    cw &&& (tableRow o).1 = (tableRow o).2 ∧ (o = .rstepn ∨ o = .cstepn → CountField cw) ↔
      cwOpc cw = (opRow o).opc ∧ (cwZ1 cw = 0#6 ∧ cwZ2 cw = 0#9) ∧ rsCheck (opRow o).rs (cwRs cw) = none ∧
        nCheck (opRow o).n (cwN cw) = none := by
  obtain ⟨opc, rs, z1, n, z2⟩ := tableRow_mask o
  have count : CountField cw ↔ 1 ≤ (cwN cw).toNat ∧ (cwN cw).toNat ≤ 64 := Iff.rfl
  rw [and_eq_iff_fields, opc, rs, z1, n, z2, tableRow_match, ← count_iff, count, rsCheck_iff_mask, nCheck_iff_mask]
  simp only [BitVec.and_allOnes, cwOpc_cmdWord, cwRs_cmdWord, cwZ1_cmdWord, cwN_cmdWord, cwZ2_cmdWord]
  tauto

/-- A transaction decodes to a command of row `o` just when it has the opcode of `o` and no check of `o` fails. -/
theorem exists_decode_iff (cw : CmdWord) (ops : List Word) (o : Opcode) :
    (∃ i, decode cw ops = .ok i ∧ opcodeOfInstr i = o) ↔ cwOpc cw = (opRow o).opc ∧ firstCause o cw ops = none := by
  constructor
  · rintro ⟨i, hi, rfl⟩
    have opc := (opc_of_decode hi).symm
    exact ⟨opc, (accepted_of_opc opc).mp ⟨i, hi⟩⟩
  · rintro ⟨opc, passes⟩
    exact ⟨_, decode_eq_ok_iff.mpr ⟨o, opc, passes, rfl⟩, opcodeOfInstr_instrOf _ _ _ _⟩

/-! ### Lines of the assembler (30_encoding.md R125) -/

theorem asmCount_natCast {n : Nat} (h1 : 1 ≤ n) (hn : n ≤ 64) : asmCount (.num n) = some n := by
  simp [asmCount, h1, hn]

theorem asmCount_eq_none {z : Int} (h : z < 1 ∨ 64 < z) : asmCount (.num z) = none :=
  if_neg (by omega)

theorem asmByte_eq_none {z : Int} (h : z < 0 ∨ 255 < z) : asmByte (.num z) = none :=
  if_neg (by omega)

theorem asmOffset_toInt (k : Word) : asmOffset (.num k.toInt) = some k := by
  have lower := k.le_toInt
  have upper := k.toInt_lt
  rw [asmOffset, if_pos (by omega), BitVec.ofInt_toInt]

/-! ### The statements -/

/-- Settles O1: the encoding passes the checks of its row by `encode_shape`, and its fields name the instruction. -/
theorem decodeOfEncodeIsTheInstruction : Obligations.DecodeOfEncodeIsTheInstruction := fun _ => decode_encode

/-- Settles O2: fields that pass the checks are those the encoder writes, and zero reserved bits leave no other bits. -/
theorem encodeOfDecodeIsTheTransaction : Obligations.EncodeOfDecodeIsTheTransaction := fun _ _ _ h =>
  ⟨wellFormed_of_decode h, encode_of_decode h⟩

/-- Settles O6: decoding to a row is passing its checks by `exists_decode_iff`, and so is matching it by
`tableRow_match_iff`. -/
theorem opcodeTableRowsSelectTheCommand : Obligations.OpcodeTableRowsSelectTheCommand := by
  intro cw ops o
  rw [exists_decode_iff, firstCause_none_iff, ← and_assoc (a := _ &&& _ = _), tableRow_match_iff]
  simp only [and_assoc]

/-- Settles O10: with its operands read, each line is the encoding of one command, and the word of an encoding is its opcode,
RS at bit 8 and N at bit 16; a refused operand leaves no command. -/
theorem assemblerSyntax : Obligations.AssemblerSyntax := by
  refine ⟨rfl, fun r h l => ?_, fun r => ?_, rfl, rfl, fun n h1 hn => ?_, fun d0 d1 d2 d3 => ?_, rfl, rfl,
    fun n h1 hn => ?_, fun d => ?_, fun k => ?_, rfl, rfl, rfl, fun z hz => ⟨?_, ?_⟩, fun z hz => ?_,
    fun r hr => ?_⟩
  · simp [assemble, asmExpand, encode, cmdWord_zero_count, opRow]
  · simp [assemble, asmExpand, encode, cmdWord_zero_count, opRow]
  · simp [assemble, asmExpand, asmCount_natCast h1 hn, encode, cmdWord_count _ _ hn, cmdWord_zero_count, opRow,
      regSelCode]
  · rw [assemble, asmExpand_ksdrv]; rfl
  · simp [assemble, asmExpand, asmCount_natCast h1 hn, encode, cmdWord_count _ _ hn, cmdWord_zero_count, opRow]
  · simp [assemble, asmExpand, encode, cmdWord_zero_count, opRow, zextByte]
  · simp [assemble, asmExpand, asmOffset_toInt, encode, cmdWord_zero_count, opRow]
  · simp [assemble, asmExpand, asmCount_eq_none hz]
  · simp [assemble, asmExpand, asmCount_eq_none hz]
  · simp [assemble, asmExpand, asmByte_eq_none hz]
  · cases r with
    | b => exact absurd rfl hr
    | _ => exact ⟨rfl, rfl, fun _ => rfl⟩ -- the step lines name no register but `b`

end Sys2Proof.Machine
end

section
/-! What the commands do to the registers one by one: which they leave alone and which they do not look at (10_state.md R36),
the step commands as iterates of the register step (40_register.md R148), and registers saved by RRD and loaded by RLD
(70_reset_and_hazards.md R353). -/

namespace Sys2Proof.Machine

/-! ### Reading a register -/

@[simp] theorem readReg_respond (s : State) (ws : List Word) (q : RegSel) : readReg (respond s ws) q = readReg s q := by
  cases q <;> rfl

@[simp] theorem readReg_clearPos (s : State) (q : RegSel) : readReg (clearPos s) q = readReg s q := by
  cases q <;> rfl

@[simp] theorem readReg_advancePos (s : State) (n : Nat) (q : RegSel) : readReg (advancePos s n) q = readReg s q := by
  cases q <;> rfl

/-! ### Registers a command does not write, and registers it does not read (10_state.md R36) -/

/-- Every command leaves each register it does not write as it was. -/
theorem exec_keeps_unwritten (i : Instr) (s : State) :
    ∃ t, exec i s = .next t ∧ ∀ q, writesReg i q = false → readReg t q = readReg s q := by
  cases i with
  | nop | rrd _ | prd | srd => exact ⟨_, rfl, fun _ _ => rfl⟩
  | rld rs hi lo =>
    refine ⟨_, exec_rld rs hi lo s, fun q h => ?_⟩
    have other : q ≠ rs := fun same => by simp [same, writesReg] at h
    rw [readReg_respond]
    split <;> simp [other]
  | rstep | rstepc | rstepn _ =>
    refine ⟨_, rfl, fun q h => ?_⟩
    cases q with
    | b => cases h
    | _ => rfl
  | ksdrv _ _ _ _ | ksexp | srst => exact ⟨_, rfl, fun _ h => by cases h⟩
  | cstep | cstepn _ | code _ =>
    refine ⟨_, rfl, fun q h => ?_⟩
    cases q with
    | b => rfl
    | _ => cases h
  | skip op =>
    rcases lt_or_ge 0 op.toInt with pos | nonpos
    · refine ⟨_, exec_skip_pos pos s, fun q h => ?_⟩
      cases q with
      | b => rfl
      | _ => cases h
    · exact ⟨_, exec_skip_nonpos nonpos s, fun _ _ => rfl⟩

/-- With a register changed beforehand that it does not read, every command answers the same and leaves the same state but
for that register, if it does not overwrite it. -/
theorem exec_ignores_unread (i : Instr) (s : State) :
    ∃ t, exec i s = .next t ∧ ∀ q x, readsReg i q = false →
      exec i (writeReg s q x) = .next (if writesReg i q = true then t else writeReg t q x) := by
  cases i with
  | nop | prd | srd | ksdrv _ _ _ _ | srst => exact ⟨_, rfl, fun q x _ => by cases q <;> rfl⟩
  | rld rs hi lo => exact ⟨_, rfl, fun q x _ => by cases rs <;> cases q <;> rfl⟩
  | rrd rs =>
    refine ⟨_, exec_rrd rs s, fun q x h => ?_⟩
    have other : rs ≠ q := fun same => by simp [same, readsReg] at h
    rw [exec_rrd, readReg_writeReg, if_neg other]
    cases q <;> rfl
  | rstep | rstepc | rstepn _ | ksexp =>
    refine ⟨_, rfl, fun q x h => ?_⟩
    cases q with
    | b => cases h
    | _ => rfl
  | cstep | cstepn _ | code _ =>
    refine ⟨_, rfl, fun q x h => ?_⟩
    cases q with
    | b => rfl
    | _ => cases h
  | skip op =>
    rcases lt_or_ge 0 op.toInt with pos | nonpos
    · refine ⟨_, exec_skip_pos pos s, fun q x h => ?_⟩
      cases q with
      | b => exact exec_skip_pos pos _
      | _ => cases h
    · refine ⟨_, exec_skip_nonpos nonpos s, fun q x h => ?_⟩
      cases q with
      | b => exact exec_skip_nonpos nonpos _
      | _ => cases h

/-! ### The step commands iterate the register step (40_register.md R148, 44_combiner.md R213) -/

/-- Stepping B is some number of register steps for each register: none for R0, R1 and R2. -/
theorem readReg_stepB (s : State) (n : Nat) (q : RegSel) :
    ∃ k, readReg (writeReg s .b (regAfter s.b n)) q = regAfter (readReg s q) k := by
  cases q with
  | b => exact ⟨n, rfl⟩
  | _ => exact ⟨0, rfl⟩

/-- Keystream bits clock R0, R1 and R2 as `combAfter_eq` counts, and B not at all. -/
theorem readReg_keystream (s : State) (n : Nat) (q : RegSel) :
    ∃ k, readReg (setCombiner s (combAfter (combiner s) n)) q = regAfter (readReg s q) k := by
  rw [combAfter_eq]
  cases q with
  | b => exact ⟨0, rfl⟩
  | _ => exact ⟨_, rfl⟩

/-- A step command steps each register some number of times. -/
theorem exec_steps_registers {i : Instr} (s : State) (q : RegSel)
    (hi : i = .rstep ∨ i = .rstepc ∨ (∃ n, i = .rstepn n) ∨ i = .cstep ∨ (∃ n, i = .cstepn n) ∨ (∃ op, i = .code op) ∨
      (∃ op, i = .skip op)) :
    ∃ t, exec i s = .next t ∧ ∃ k, readReg t q = regAfter (readReg s q) k := by
  have ofB := fun n => readReg_stepB s n q
  have ofCombiner := fun n => readReg_keystream s n q
  rcases hi with rfl | rfl | ⟨n, rfl⟩ | rfl | ⟨n, rfl⟩ | ⟨op, rfl⟩ | ⟨op, rfl⟩
  · exact ⟨_, exec_rstep s, by simpa [regAfter_succ] using ofB 1⟩
  · exact ⟨_, exec_rstepc s, by simpa [regAfter_succ] using ofB 1⟩
  · exact ⟨_, exec_rstepn n s, by simpa using ofB n⟩
  · exact ⟨_, exec_cstep s, by simpa using ofCombiner 1⟩
  · exact ⟨_, exec_cstepn n s, by simpa using ofCombiner n⟩
  · exact ⟨_, exec_code op s, by simpa using ofCombiner 8⟩
  · rcases lt_or_ge 0 op.toInt with pos | nonpos
    · exact ⟨_, exec_skip_pos pos s, by simpa using ofCombiner (8 * op.toInt.toNat)⟩
    · exact ⟨_, exec_skip_nonpos nonpos s, 0, readReg_respond s [] q⟩

/-! ### Saving and restoring R0, R1 and R2 (70_reset_and_hazards.md R353) -/

/-- RLD of a combiner register loads it and clears POS (40_register.md R150). -/
theorem exec_rld_of_ne_b {q : RegSel} (h : q ≠ .b) (x : Reg) (s : State) :
    exec (.rld q x.hi x.lo) s = .next (respond (clearPos (writeReg s q x)) []) := by
  rw [exec_rld, if_neg h]

/-- The transaction of a well-formed command does in one step what the command does, and leaves the actions after it. -/
theorem step_transactionOf_next {i : Instr} {s t : State} (hi : wellFormed i = true) (h : exec i s = .next t)
    (acts : List HostAction) : step (withActions s (transactionOf i :: acts)) = .next (withActions t acts) := by
  obtain ⟨u, executed, anyActions⟩ := exec_withActions i s
  cases h.symm.trans executed
  exact (step_transactionOf (decode_encode hi) s acts).trans (anyActions acts)

/-- Three commands, one after the other. -/
theorem Runs_three {i j k : Instr} {s t u v : State} (hi : wellFormed i = true) (hj : wellFormed j = true)
    (hk : wellFormed k = true) (first : exec i s = .next t) (second : exec j t = .next u) (third : exec k u = .next v) :
    Runs 3 (withActions s [transactionOf i, transactionOf j, transactionOf k]) (withActions v []) :=
  Runs_succ (step_transactionOf_next hi first _)
    (Runs_succ (step_transactionOf_next hj second _) (Runs_succ (step_transactionOf_next hk third _) (run_zero _)))

/-- Three RRD answer the halves of R0, R1 and R2. -/
theorem Runs_rrd_combiner (s : State) :
    ∃ t, Runs 3 (withActions s [transactionOf (.rrd .r0), transactionOf (.rrd .r1), transactionOf (.rrd .r2)]) t ∧
      t.responses = s.responses ++
        [⟨true, [s.r0.hi, s.r0.lo]⟩, ⟨true, [s.r1.hi, s.r1.lo]⟩, ⟨true, [s.r2.hi, s.r2.lo]⟩] := by
  refine ⟨_, Runs_three rfl rfl rfl (exec_rrd .r0 s) (exec_rrd .r1 _) (exec_rrd .r2 _), ?_⟩
  simp only [withActions, respond_responses, List.append_assoc, List.cons_append, List.nil_append]
  rfl

/-- Three RLD put any combiner into the block and clear POS. -/
theorem Runs_rld_combiner (c : Combiner) (v : State) :
    ∃ u, Runs 3 (withActions v [transactionOf (.rld .r0 c.r0.hi c.r0.lo), transactionOf (.rld .r1 c.r1.hi c.r1.lo),
      transactionOf (.rld .r2 c.r2.hi c.r2.lo)]) u ∧ combiner u = c ∧ u.pos = 0#64 :=
  ⟨_, Runs_three rfl rfl rfl (exec_rld_of_ne_b (q := .r0) (by decide) c.r0 v)
    (exec_rld_of_ne_b (q := .r1) (by decide) c.r1 _) (exec_rld_of_ne_b (q := .r2) (by decide) c.r2 _), rfl, rfl⟩

/-! ### The statements -/

/-- Settles O25: the write frame is `exec_keeps_unwritten`, the independence of unread registers `exec_ignores_unread`. -/
theorem registerAccess : Obligations.RegisterAccess := by
  intro i s
  obtain ⟨t, ht, unwritten⟩ := exec_keeps_unwritten i s
  obtain ⟨u, hu, unread⟩ := exec_ignores_unread i s
  cases ht.symm.trans hu
  exact ⟨t, ht, unwritten, unread⟩

/-- Settles O48: register steps keep a nonzero register nonzero. -/
theorem steppingKeepsRegistersNonzero : Obligations.SteppingKeepsRegistersNonzero := by
  intro i s q hi nonzero
  obtain ⟨t, executed, k, steps⟩ := exec_steps_registers s q hi
  exact ⟨t, executed, steps ▸ regAfter_ne_zero nonzero k⟩

/-- Settles O54: the saved words are those of `combiner s`, which the three RLD put back, and its keystream with it. -/
theorem savedRegistersRestoreTheKeystream : Obligations.SavedRegistersRestoreTheKeystream := by
  intro s v
  obtain ⟨t, saved, answers⟩ := Runs_rrd_combiner s
  obtain ⟨u, loaded, restored, pos⟩ := Runs_rld_combiner (combiner s) v
  exact ⟨_, _, _, _, _, _, t, u, saved, answers, loaded, restored, fun k => by rw [restored], pos⟩

end Sys2Proof.Machine
end

section
/-! Steps and STATUS (10_state.md R55, 20_memory.md R78, R80, 60_exceptions.md R301, R315): the status invariant, the step that
runs a decoded command, the waiting block, and the commands that only answer. -/

namespace Sys2Proof.Machine

/-! ### The status invariant (10_state.md R55) -/

/-- The invariant speaks of STATUS and the responses only, and an accepted command's response adds nothing to check. -/
theorem StatusInv.of_accepted {s t : State} {ws : List Word} (inv : StatusInv s) (ill : t.ill = s.ill)
    (errcw : t.errcw = s.errcw) (responses : t.responses = s.responses ++ [⟨true, ws⟩]) : StatusInv t where
  clear h := errcw.trans (inv.clear (ill ▸ h))
  told h := by
    obtain ⟨r, hr, rejected⟩ := inv.told (ill ▸ h)
    exact ⟨r, by simp [responses, hr], rejected⟩
  empty r hr rejected := by
    rw [responses, List.mem_append, List.mem_singleton] at hr
    rcases hr with hr | rfl
    · exact inv.empty r hr rejected
    · cases rejected

/-- Reset clears ILL and ERRCW, and the responses stay. -/
theorem StatusInv.of_resetBlock {s : State} (inv : StatusInv s) : StatusInv (resetBlock s) where
  clear _ := rfl
  told h := by cases h
  empty := inv.empty

/-- A rejection sets ILL and tells the host, with no words. -/
theorem StatusInv.of_reject {s : State} (inv : StatusInv s) (cw : CmdWord) : StatusInv (reject cw s) where
  clear h := by cases h
  told _ := ⟨⟨false, []⟩, by simp, rfl⟩
  empty r hr rejected := by
    rw [reject_responses, List.mem_append, List.mem_singleton] at hr
    rcases hr with hr | rfl
    · exact inv.empty r hr rejected
    · rfl

/-- SRST resets the block and answers; every other command keeps STATUS and answers. -/
theorem StatusInv.of_exec {i : Instr} {s t : State} (inv : StatusInv s) (h : exec i s = .next t) : StatusInv t := by
  by_cases hi : i = .srst
  · subst hi
    cases (exec_srst s).symm.trans h
    exact inv.of_resetBlock.of_accepted rfl rfl rfl
  · obtain ⟨u, executed, ill, errcw⟩ := exec_keeps_status s hi
    obtain ⟨v, ws, responded, -, -, responses⟩ := exec_responds i s
    cases h.symm.trans executed
    cases h.symm.trans responded
    exact inv.of_accepted ill errcw (by rw [respond_responses, responses])

theorem StatusInv.of_setActions {s : State} (inv : StatusInv s) (acts : List HostAction) :
    StatusInv { s with actions := acts } := ⟨inv.clear, inv.told, inv.empty⟩

/-! ### The commands that only answer (20_memory.md R78) -/

/-- NOP, RRD, PRD and SRD answer words that do not depend on the responses delivered, and change nothing else. -/
theorem exec_only_answers {i : Instr} (s : State) (hi : i = .nop ∨ (∃ q, i = .rrd q) ∨ i = .prd ∨ i = .srd) :
    ∃ ws, ∀ rs, exec i { s with responses := rs } = .next { s with responses := rs ++ [⟨true, ws⟩] } := by
  rcases hi with rfl | ⟨q, rfl⟩ | rfl | rfl
  · exact ⟨[], fun _ => rfl⟩
  · exact ⟨[(readReg s q).hi, (readReg s q).lo], fun _ => by cases q <;> rfl⟩
  · exact ⟨[s.pos], fun _ => rfl⟩
  · exact ⟨[statusWord s.errcw s.ill], fun _ => rfl⟩

/-! ### The statements -/

/-- Settles O21: one case for each thing a step can do, by `step_cases`. -/
theorem stepKeepsStatusInvariant : Obligations.StepKeepsStatusInvariant := by
  intro s t inv h
  rcases step_cases h with ⟨-, rfl⟩ | ⟨rest, -, rfl⟩ | ⟨_, _, rest, i, -, -, executed⟩ | ⟨cw, _, rest, _, -, -, rfl⟩
  · exact inv
  · exact (inv.of_setActions rest).of_resetBlock
  · exact (inv.of_setActions rest).of_exec executed
  · exact (inv.of_setActions rest).of_reject cw

/-- Settles O22: after reset ILL and ERRCW are 0 and no response has been delivered. -/
theorem resetHasStatusInvariant : Obligations.ResetHasStatusInvariant where
  clear _ := rfl
  told h := by cases h
  empty _ hr := by cases hr

/-- Settles O13: the step takes the transaction, and the transaction runs the command it decodes to. -/
theorem stepRunsTheDecodedInstruction : Obligations.StepRunsTheDecodedInstruction := fun _ _ _ _ _ hs hd =>
  (step_cons hs).trans (transact_ok hd _)

/-- Settles O17: each step of a waiting block leaves it as it is. -/
theorem waitingBlockHoldsItsState : Obligations.WaitingBlockHoldsItsState := fun _ n h => Runs_of_no_actions h n

/-- Settles O28: the answer does not depend on the responses delivered, so the second run repeats it. -/
theorem readCommandsChangeNoState : Obligations.ReadCommandsChangeNoState := by
  intro i s hi
  obtain ⟨ws, answers⟩ := exec_only_answers s hi
  exact ⟨_, answers s.responses, answers _⟩

end Sys2Proof.Machine
end
